-- ==== Sys2Proof/Word.lean ====
section
/-! DEFINITION. The word type of DEC: the byte (spec 00_scope.md R7, R14). Every other number of DEC is an unbounded natural (R11), so there is no wider word. -/

namespace Sys2Proof

/-- A byte: 8 bits (R7). Bit 7 is the most significant (R11). -/
abbrev Byte := BitVec 8

end Sys2Proof
end

