-- ==== Sys2Proof/Machine/Operands.lean ====
section
/-! DEFINITION. The Register/Operand Model (spec 40_operand_model.md) and the Instruction Descriptor (00_scope.md R14, 41_opcode_catalog.md R123 to R125): pure data that stands inside catalog entries. No step reads an operand (R108). -/

namespace Sys2Proof.Machine

/-- The eight 8-bit register names (R101); `f` is the flags register. They name registers of the target CPU, which DEC does not have (R28). -/
inductive Reg8 where
  | a | b | c | d | e | h | l | f
deriving DecidableEq, Repr

/-- The 16-bit pairs a catalog may name: the five of the baseline set and `af`, the one tag by which a catalog that needs it extends the set (R10, R102, D13; log entry 9). `pc` is a name, unrelated to DEC's cursor. -/
inductive Reg16 where
  | sp | pc | bc | de | hl
  | af
deriving DecidableEq, Repr

/-- The baseline `REG16_SET`: "exactly the five the source names" (R102). -/
def Reg16.baseline : List Reg16 := [.sp, .pc, .bc, .de, .hl]

/-- The one-step post-adjustment of an indirect operand: -1, 0 or +1, and no other (R103). -/
inductive Adj where
  | decrement | keep | increment
deriving DecidableEq, Repr

/-- The signed number an adjustment stands for (R103). DEC does no arithmetic on it. -/
def Adj.value : Adj → Int
  | .decrement => -1
  | .keep => 0
  | .increment => 1

/-- `R8(r)`, `R16(p)` and `IND(p, adj)` (R100). Equality is structural (R105), so operands that differ only in the adjustment are different (R104). -/
inductive Operand where
  | r8 (r : Reg8)
  | r16 (p : Reg16)
  | ind (p : Reg16) (adj : Adj)
deriving DecidableEq, Repr

/-- A parameter of a mnemonic: an operand, a number fixed in the entry (R106), or a placeholder for one or two trailing literal bytes (R107). -/
inductive Param where
  | operand (o : Operand)
  | num (k : Nat)
  | imm8
  | imm16
deriving DecidableEq, Repr

/-- "zero, one, or two" parameters (R125). -/
inductive ParamList where
  | p0
  | p1 (p : Param)
  | p2 (p q : Param)
deriving DecidableEq, Repr

def ParamList.toList : ParamList → List Param
  | .p0 => []
  | .p1 p => [p]
  | .p2 p q => [p, q]

/-- Tags whose parameter shape the spec does not fix: the three the source names, and tags a catalog extension adds (R125; log entry 9). -/
inductive ExtTag where
  | inc | xor | rst
  | added (n : Nat)
deriving DecidableEq, Repr

/-- A mnemonic: a tag with its operands as typed fields (R125). `NOP`, `LD` and `BIT` have the shapes R125 gives them; a bit index is in 0 .. 7 (R106). -/
inductive Mnemonic where
  | nop
  | ld (dst src : Param)
  | bit (index : Fin 8) (reg : Reg8)
  | ext (tag : ExtTag) (ps : ParamList)
deriving DecidableEq, Repr

/-- The parameters of a mnemonic in the uniform view `tag(p1, .., pm)` of R14. -/
def Mnemonic.params : Mnemonic → List Param
  | .nop => []
  | .ld dst src => [dst, src]
  | .bit index reg => [.num index.val, .operand (.r8 reg)]
  | .ext _ ps => ps.toList

/-- An Instruction Descriptor (R14). `totalLength` counts the bytes of the instruction in the space it was looked up in, so it leaves the escape byte out (R123); `cycleCost` is metadata no step reads (R124). -/
structure Descriptor where
  mnemonic : Mnemonic
  totalLength : Nat
  cycleCost : Nat
deriving DecidableEq, Repr

/-- The invariants of every descriptor: `total_length >= 1` and `cycle_cost >= 1` (R124). -/
def Descriptor.wf (d : Descriptor) : Bool :=
  decide (1 ≤ d.totalLength) && decide (1 ≤ d.cycleCost)

/-- `n = total_length - 1`, the number of trailing literal bytes (R163); a natural because of R124. -/
def Descriptor.trailing (d : Descriptor) : Nat := d.totalLength - 1

/-- Literal bytes a placeholder stands for (R107). -/
def Param.literalBytes : Param → Nat
  | .imm8 => 1
  | .imm16 => 2
  | .operand _ => 0
  | .num _ => 0

/-- The consistency R107 expects of an entry: the trailing bytes are those its placeholders announce. It holds of CAT_MIN and is only recommended for extensions: no step looks at it. -/
def Descriptor.consistent (d : Descriptor) : Bool :=
  decide (d.trailing = (d.mnemonic.params.map Param.literalBytes).sum)

end Sys2Proof.Machine
end

