-- ==== Sys2Proof/Machine/Catalog.lean ====
section
/-! DEFINITION. The Opcode Catalog (spec 41_opcode_catalog.md): two byte-indexed tables, their lookups, the baseline catalog CAT_MIN and well-formedness. -/

namespace Sys2Proof.Machine

/-- `ESC`, the escape byte (R8). A constant of DEC, not a setting. -/
def escapeByte : Byte := 0xCB#8

/-- The entries of one opcode space: byte and descriptor, bytes strictly rising, a byte that is not listed having no entry (R23; log entry 4). -/
abbrev Table := List (Byte × Descriptor)

/-- `CAT = (CAT_P, CAT_S)` (R9, R23): one table for each space, and no entry of one constrains the other (R126). -/
structure Catalog where
  primary : Table
  secondary : Table
deriving DecidableEq, Repr

/-- Direct indexing of one table: total on every byte, with the miss as a value (R122). -/
def Table.entry : Table → Byte → Option Descriptor
  | [], _ => none
  | (k, d) :: t, b => if k = b then some d else Table.entry t b

/-- `lookup_primary(b)` (R120). -/
def Catalog.lookupPrimary (c : Catalog) (b : Byte) : Option Descriptor := Table.entry c.primary b

/-- `lookup_secondary(b)`: `b` is the byte after the escape byte (R121). -/
def Catalog.lookupSecondary (c : Catalog) (b : Byte) : Option Descriptor := Table.entry c.secondary b

/-- `NOP()`, primary 0x00 (R130). The source fixes the length; the cycle cost is the spec's choice (D10; log entry 11). -/
def dNop : Descriptor := ⟨.nop, 1, 1⟩

/-- `LD(R16(BC), IMM16)`, primary 0x01 (R131). The source fixes the length; the rest is the spec's choice (D10, D11; log entry 11). -/
def dLdBc : Descriptor := ⟨.ld (.operand (.r16 .bc)) .imm16, 3, 3⟩

/-- `LD(R16(SP), IMM16)`, primary 0x31 (R132). -/
def dLdSp : Descriptor := ⟨.ld (.operand (.r16 .sp)) .imm16, 3, 3⟩

/-- `BIT(NUM(7), R8(H))`, secondary 0x7C (R134). The cycle cost is the spec's choice (D10; log entry 11). -/
def dBit7H : Descriptor := ⟨.bit 7 .h, 1, 2⟩

/-- `CAT_MIN` (R135): three primary entries, one secondary entry, nothing else. -/
def catMin : Catalog where
  primary := [(0x00#8, dNop), (0x01#8, dLdBc), (0x31#8, dLdSp)]
  secondary := [(0x7C#8, dBit7H)]

/-- The canonical form of a table from byte value `lo` on: bytes strictly rising (log entry 4). -/
def Table.risingFrom : Nat → Table → Bool
  | _, [] => true
  | lo, (k, _) :: t => decide (lo ≤ k.toNat) && Table.risingFrom (k.toNat + 1) t

/-- Clause (a) of R127 for one table, with its canonical form. -/
def Table.wf (t : Table) : Bool := Table.risingFrom 0 t && t.all fun e => e.2.wf

/-- `WF(CAT)` (R127): (a) every descriptor has both invariants; (b) no primary entry at ESC; (c) agreement with CAT_MIN at the five bytes the source fixes. -/
def Catalog.wf (c : Catalog) : Bool :=
  Table.wf c.primary && Table.wf c.secondary &&
  decide (c.lookupPrimary escapeByte = none) &&
  decide (c.lookupPrimary 0x00#8 = some dNop) &&
  decide (c.lookupPrimary 0x01#8 = some dLdBc) &&
  decide (c.lookupPrimary 0x31#8 = some dLdSp) &&
  decide (c.lookupSecondary 0x7C#8 = some dBit7H)

/-- `CAT <= CAT'` (R128): every entry of the first stands unchanged in the second. -/
def Catalog.le (c c' : Catalog) : Prop :=
  (∀ b d, c.lookupPrimary b = some d → c'.lookupPrimary b = some d) ∧
  (∀ b d, c.lookupSecondary b = some d → c'.lookupSecondary b = some d)

end Sys2Proof.Machine
end

