-- ==== Sys2Proof/Config.lean ====
section
/-! DEFINITION. What is fixed for the machine (spec 00_scope.md R7, R10). The open parameters of R10 that a pass depends on (IN, LEN, CAT) are plain data in State; CURW, TLW, CYCW and MAXLEN have no constant, because the model computes with unbounded naturals (log entry 13); IMM_ORDER belongs to the consumer, since DEC never joins bytes (R51). No result of a step is undefined, so there is no free value here. -/

namespace Sys2Proof.Config

/-- `TABLE_N`: index values of each catalog (R7, R10). A table lists at most so many entries (Laws/Catalog.lean). `NSPACES` = 2 is the two fields of `Machine.Catalog`. -/
def tableSize : Nat := 256

/-- Bytes of the longest row of spec/opcode_table.json (LD BC,d16 and LD SP,d16). A catalog may hold longer entries (R71): this bounds nothing, it only says how far `decodeTableWord` pads a word with zero bytes. -/
def longestRow : Nat := 3

end Sys2Proof.Config
end

