-- ==== Sys2Proof/Syntax.lean ====
section
/-! DEFINITION. The instructions of DEC: one constructor per row of spec/opcode_table.json (spec 30_encoding.md R77, R83). An operand is a byte of the row's encoding that the row leaves open. -/

namespace Sys2Proof

/-- One instruction of the opcode table with the bytes its encoding leaves open. A byte that no row names may still have an entry in a catalog that extends CAT_MIN (R128); it has no constructor, and `Machine.step` sends it down the plain path. -/
inductive Instr where
  /-- `NOP`, format P, `00000000` (R130). -/
  | nop
  /-- `LD BC,d16`, format P, `00000001 aaaaaaaa bbbbbbbb`: the two literal bytes in stream order, never joined (R131, R51). -/
  | ldBcD16 (a b : Byte)
  /-- `LD SP,d16`, format P, `00110001 aaaaaaaa bbbbbbbb` (R132). -/
  | ldSpD16 (a b : Byte)
  /-- `PREFIX`, `11001011 cccccccc`: the escape byte and a secondary opcode `c` (R133). -/
  | prefixed (c : Byte)
  /-- `BIT 7,H`, format X, `11001011 01111100` (R134). -/
  | bit7H
deriving DecidableEq, Repr

end Sys2Proof
end

