-- ==== Sys2Proof/WellFormed.lean ====
section
/-! DEFINITION. Well-formed instructions: the one check the opcode table asks for (spec 30_encoding.md R83). -/

namespace Sys2Proof

/-- `CB 7C` has a row of its own, BIT 7,H (R134), so the PREFIX row stands for every other secondary opcode byte. Every other operand is a byte that may have any value (R75). -/
def Instr.wf : Instr → Bool
  | .nop => true
  | .ldBcD16 _ _ => true
  | .ldSpD16 _ _ => true
  | .prefixed c => decide (c ≠ 0x7C#8)
  | .bit7H => true

end Sys2Proof
end

