-- ==== Sys2Proof/Decode.lean ====
section
/-! DEFINITION. The decoder of the opcode table's encodings and its encoder (spec 30_encoding.md R70, R73, R77, R83), and the two decode functions of DEC over a catalog (42_instruction_decoder.md). -/

namespace Sys2Proof

/-- Why a list of bytes does not begin with a whole instruction of the opcode table. `Machine.step` turns each into what the spec says happens there. -/
inductive Reject where
  /-- No byte: the end of the stream (R161). -/
  | endOfStream
  /-- The escape byte with no byte after it (R203). -/
  | loneEscape
  /-- A row whose literal bytes run past the end (R202). -/
  | cutShort (opcode : Byte) (needed available : Nat)
  /-- No row of the table has this opcode byte; a larger catalog may have an entry for it (R78, R128). -/
  | noRow (opcode : Byte)
deriving DecidableEq, Repr

/-- The rows with two literal bytes: take them, or say how many are missing. -/
def decodeTwoLiterals (opcode : Byte) (mk : Byte → Byte → Instr) : List Byte → Except Reject (Instr × List Byte)
  | a :: b :: rest => .ok (mk a b, rest)
  | short => .error (.cutShort opcode 2 short.length)

/-- The byte after the escape: any value is an opcode of the secondary space, 0xCB included (R74). -/
def decodeSecondByte : List Byte → Except Reject (Instr × List Byte)
  | [] => .error .loneEscape
  | c :: rest => if c = 0x7C#8 then .ok (.bit7H, rest) else .ok (.prefixed c, rest)

/-- The instruction at the head of a byte list and the bytes after it. The whole first byte is one index (R72); the escape is told apart before anything else (R162). -/
def decode : List Byte → Except Reject (Instr × List Byte)
  | [] => .error .endOfStream
  | op :: rest =>
    if op = Machine.escapeByte then decodeSecondByte rest
    else if op = 0x00#8 then .ok (.nop, rest)
    else if op = 0x01#8 then decodeTwoLiterals op .ldBcD16 rest
    else if op = 0x31#8 then decodeTwoLiterals op .ldSpD16 rest
    else .error (.noRow op)

/-- The bytes of an instruction in stream order (R50, R70, the `encoding` column of R83). -/
def encode : Instr → List Byte
  | .nop => [0x00#8]
  | .ldBcD16 a b => [0x01#8, a, b]
  | .ldSpD16 a b => [0x31#8, a, b]
  | .prefixed c => [Machine.escapeByte, c]
  | .bit7H => [Machine.escapeByte, 0x7C#8]

/-- `w` as `n` bytes, the first byte holding the lowest bits: opcode_table.json numbers a later byte's bits on from the first's. -/
def bytesOfWord : Nat → Nat → List Byte
  | 0, _ => []
  | n + 1, w => BitVec.ofNat 8 w :: bytesOfWord n (w / 256)

/-- The stream bytes of a word numbered as opcode_table.json numbers it, zero bytes up to the longest row. A row of the secondary space numbers its opcode byte "in its own space" (R83) and leaves the escape byte out; 0x7C is such a row's byte and no primary row's, so the escape byte is put before it (log entry 7). -/
def tableBytes (nbits w : Nat) : List Byte :=
  let bytes := bytesOfWord (max ((nbits + 7) / 8) Config.longestRow) (w % 2 ^ nbits)
  if bytes.head? = some 0x7C#8 then Machine.escapeByte :: bytes else bytes

/-- What `decode` reads from a word of the opcode table. -/
def decodeTableWord (nbits w : Nat) : Option Instr :=
  match decode (tableBytes nbits w) with
  | .ok (i, _) => some i
  | .error _ => none

namespace Machine

/-- A miss as a decode function returns it, with no offset: neither function knows one (R14, R152). -/
structure LookupMiss where
  byte : Byte
  prefixed : Bool
deriving DecidableEq, Repr

/-- `decode_primary(b)` (R150). -/
def decodePrimary (c : Catalog) (b : Byte) : Except LookupMiss Descriptor :=
  match c.lookupPrimary b with
  | some d => .ok d
  | none => .error ⟨b, false⟩

/-- `decode_secondary(b)` (R151). -/
def decodeSecondary (c : Catalog) (b : Byte) : Except LookupMiss Descriptor :=
  match c.lookupSecondary b with
  | some d => .ok d
  | none => .error ⟨b, true⟩

end Machine

end Sys2Proof
end

