-- ==== Sys2Proof/Machine/Memory.lean ====
section
/-! DEFINITION. The input buffer's bytes as a list of cells in one canonical form (spec 10_state.md R21; 20_memory.md R54, R56; log entry 2). -/

namespace Sys2Proof.Machine

/-- The cells of the input space: addresses strictly rising, no cell equal to what an unlisted address holds. -/
abbrev Memory := List Host.Cell

/-- What a cell that is not listed holds. Together with LEN the canonical lists are exactly the byte sequences of length LEN, so the choice leaves no byte sequence out and adds none (log entry 2). -/
def Memory.unlisted : Byte := 0x00#8

/-- The byte at offset `a`. -/
def Memory.read : Memory → Nat → Byte
  | [], _ => Memory.unlisted
  | (k, v) :: t, a => if k = a then v else Memory.read t a

/-- Put byte `v` at offset `a`, keeping the canonical form. Only the host writes the input buffer (R21, R235). -/
def Memory.write : Memory → Nat → Byte → Memory
  | [], a, v => if v = Memory.unlisted then [] else [(a, v)]
  | (k, w) :: t, a, v =>
    if a < k then (if v = Memory.unlisted then (k, w) :: t else (a, v) :: (k, w) :: t)
    else if a = k then (if v = Memory.unlisted then t else (a, v) :: t)
    else (k, w) :: Memory.write t a v

/-- `MemRead(a, n)`: the `n` bytes from offset `a` in ascending order (R13). -/
def Memory.slice (m : Memory) : Nat → Nat → List Byte
  | _, 0 => []
  | a, n + 1 => m.read a :: Memory.slice m (a + 1) n

/-- Put the bytes of a list at offset `a` and after it. -/
def Memory.load (m : Memory) : Nat → List Byte → Memory
  | _, [] => m
  | a, v :: vs => Memory.load (m.write a v) (a + 1) vs

/-- The buffer that holds exactly the bytes of a list, from offset 0. -/
def Memory.ofBytes (bs : List Byte) : Memory := Memory.load [] 0 bs

/-- The canonical form from offset `lo` on. -/
def Memory.canonicalFrom : Nat → Memory → Bool
  | _, [] => true
  | lo, (k, v) :: t => decide (lo ≤ k) && decide (v ≠ Memory.unlisted) && Memory.canonicalFrom (k + 1) t

/-- Addresses strictly rising, and no cell equal to what an unlisted address holds. -/
def Memory.wf (m : Memory) : Bool := Memory.canonicalFrom 0 m

/-- No cell at or past `len`: the buffer has `len` bytes and no other exists. -/
def Memory.within (len : Nat) (m : Memory) : Bool := m.all fun c => decide (c.1 < len)

end Sys2Proof.Machine
end

