-- ==== Sys2Proof/Machine/State.lean ====
section
/-! DEFINITION. The state of DEC (spec 10_state.md), its reset, and the reasons a step may stop. -/

namespace Sys2Proof.Machine

/-- A Stream Entry (R14, R80): one for each consumed input byte. -/
inductive Entry where
  | instruction (d : Descriptor)
  | literal (v : Byte)
  | escape (v : Byte)
deriving DecidableEq, Repr

/-- A Decode Error with its recorded fields (R14, R201 to R203). -/
inductive DecodeError where
  | unimplementedOpcode (byte : Byte) (prefixed : Bool) (offset : Nat)
  | truncatedOperand (offset needed available : Nat)
  | truncatedEscape (offset : Nat)
deriving DecidableEq, Repr

/-- `OUTCOME` (R26): `RUN`, `DONE`, `FAIL`. -/
inductive PassOutcome where
  | run | done | fail
deriving DecidableEq, Repr

/-- Everything the spec gives the machine (10_state.md sections 2 and 3). `input`, `len` and `cat` are read and never written by a step; the other four are the working storage of R28. -/
structure State where
  /-- `IN` (R21). -/
  input : Memory
  /-- `LEN` (R22). -/
  len : Nat
  /-- `CAT_P` and `CAT_S` (R23). -/
  cat : Catalog
  /-- `CUR` (R24). -/
  cur : Nat
  /-- `OUT` (R25). -/
  out : List Entry
  /-- `OUTCOME` (R26). -/
  outcome : PassOutcome
  /-- `ERR` (R27). -/
  err : Option DecodeError
deriving DecidableEq, Repr

/-- Why no step is taken. -/
inductive Fault where
  /-- Raised by every meaning and by `step` when OUTCOME is DONE or FAIL: "the sequencer has no step" (R26, R160; log entry 3). Safe: the model offers no step the machine lacks. -/
  | passEnded
deriving DecidableEq, Repr

/-- What the model gives no meaning to. -/
inductive Refusal where
  /-- An instruction whose arm has no meaning yet; raised by no arm of this model. Safe. -/
  | notModelled (mnemonic : String)
  /-- Raised by every meaning and by `step` when the catalog is not well-formed: the spec "gives no meaning to a pass over an ill-formed catalog" (R127, U9; log entry 5). Safe. -/
  | illFormedCatalog
deriving DecidableEq, Repr

/-- The machine after reset (R36, R230): `CUR = 0`, `OUT = []`, `OUTCOME = RUN`, `ERR = none`. `IN`, `LEN` and `CAT` are what the host supplied; here it has supplied no byte and the baseline catalog (DESIGN CHOICE, log entry 1). -/
def State.reset : State where
  input := []
  len := 0
  cat := catMin
  cur := 0
  out := []
  outcome := .run
  err := none

end Sys2Proof.Machine
end

