-- ==== Sys2Proof/Machine/Flags.lean ====
section
/-! DEFINITION. DEC has no flags and no condition codes (spec 10_state.md R29). What stands in their place are the status registers of R32, read by the host after a pass: the fields of ERR, each a view of the one optional record. -/

namespace Sys2Proof.Machine

/-- `ERR.kind` as a number (R204; the spec's own numbering, D17). -/
def errKind : Option DecodeError → Nat
  | none => 0
  | some (.unimplementedOpcode _ _ _) => 1
  | some (.truncatedOperand _ _ _) => 2
  | some (.truncatedEscape _) => 3

/-- `offset`, the field every kind has (R201 to R203). -/
def DecodeError.offset : DecodeError → Nat
  | .unimplementedOpcode _ _ o => o
  | .truncatedOperand o _ _ => o
  | .truncatedEscape o => o

/-- The same error at an offset raised by `k`, the other fields unchanged (R177). -/
def DecodeError.shift (k : Nat) : DecodeError → DecodeError
  | .unimplementedOpcode b p o => .unimplementedOpcode b p (k + o)
  | .truncatedOperand o n a => .truncatedOperand (k + o) n a
  | .truncatedEscape o => .truncatedEscape (k + o)

/-- `ERR.byte`: valid only when the kind is UnimplementedOpcode (R32). -/
def errByte : Option DecodeError → Option Byte
  | some (.unimplementedOpcode b _ _) => some b
  | some (.truncatedOperand _ _ _) => none
  | some (.truncatedEscape _) => none
  | none => none

/-- `ERR.prefixed`: valid only when the kind is UnimplementedOpcode (R32). -/
def errPrefixed : Option DecodeError → Option Bool
  | some (.unimplementedOpcode _ p _) => some p
  | some (.truncatedOperand _ _ _) => none
  | some (.truncatedEscape _) => none
  | none => none

/-- `ERR.offset`: valid when the kind is not `none` (R32). -/
def errOffset (e : Option DecodeError) : Option Nat := e.map DecodeError.offset

/-- `ERR.needed`: valid only when the kind is TruncatedOperand (R32). -/
def errNeeded : Option DecodeError → Option Nat
  | some (.unimplementedOpcode _ _ _) => none
  | some (.truncatedOperand _ n _) => some n
  | some (.truncatedEscape _) => none
  | none => none

/-- `ERR.available`: valid only when the kind is TruncatedOperand (R32). -/
def errAvailable : Option DecodeError → Option Nat
  | some (.unimplementedOpcode _ _ _) => none
  | some (.truncatedOperand _ _ a) => some a
  | some (.truncatedEscape _) => none
  | none => none

end Sys2Proof.Machine
end

