-- ==== Sys2Proof/Machine/Ops.lean ====
section
/-! DEFINITION. The named operations every meaning is written over: reads of IN, appends to OUT, taking a Decode Error, the plain and the prefixed path (spec 43_stream_assembler.md R160 to R165). -/

namespace Sys2Proof.Machine

/-- What a step of DEC answers. -/
abbrev StepOutcome := Host.Outcome State Fault Refusal

/-- A step is enabled exactly when OUTCOME = RUN (R160), and only a well-formed catalog has a meaning (R127). -/
def whenEnabled (s : State) (k : StepOutcome) : StepOutcome :=
  match s.outcome with
  | .run => if s.cat.wf then k else .refused .illFormedCatalog
  | .done => .fault .passEnded
  | .fail => .fault .passEnded

/-- `IN[a]`, defined only for `a < LEN` (R12, R53). -/
def State.byteAt (s : State) (a : Nat) : Option Byte :=
  if a < s.len then some (s.input.read a) else none

/-- The bytes of IN from offset `a` to LEN, in stream order (R50); none at or past LEN (R53). -/
def State.bytesFrom (s : State) (a : Nat) : List Byte := s.input.slice a (s.len - a)

/-- `OutAppend` for each entry of a list, in order, then the cursor's advance (R13). -/
def State.emit (s : State) (es : List Entry) (cur : Nat) : State :=
  { s with out := s.out ++ es, cur := cur }

/-- `OUTCOME <- DONE`: the only normal termination (R161). -/
def State.finish (s : State) : State := { s with outcome := .done }

/-- Taking a Decode Error, the machine's one exception entry (R165, R207): ERR, OUTCOME and the stop offset are written and nothing else. There is no handler and no return from it (R209). -/
def State.raise (s : State) (e : DecodeError) (stop : Nat) : State :=
  { s with err := some e, outcome := .fail, cur := stop }

/-- The stream assembler adds the offset to the decoder's miss (R152, R163). -/
def LookupMiss.at (m : LookupMiss) (offset : Nat) : DecodeError :=
  .unimplementedOpcode m.byte m.prefixed offset

/-- The Instruction entry of a descriptor and its `n` Literal entries, each carrying a byte unchanged (R75, R81). -/
def instructionEntries (d : Descriptor) (lits : List Byte) : List Entry :=
  .instruction d :: (lits.take d.trailing).map .literal

/-- The plain path for opcode byte `b` at CUR (R163): lookup, truncation test, appends, in that order. `lits` are the bytes that follow the opcode. -/
def plainPath (b : Byte) (lits : List Byte) (s : State) : State :=
  match decodePrimary s.cat b with
  | .error miss => s.raise (miss.at s.cur) s.cur
  | .ok d =>
    let available := s.len - (s.cur + 1)
    if d.trailing > available then
      s.raise (.truncatedOperand s.cur d.trailing available) s.cur
    else
      s.emit (instructionEntries d lits) (s.cur + 1 + d.trailing)

/-- The prefixed path with the escape byte at CUR and secondary opcode `c` after it (R164). The Escape entry is appended before the secondary decode and stays in OUT when that fails (D6). `lits` are the bytes that follow `c`. -/
def prefixedPath (c : Byte) (lits : List Byte) (s : State) : State :=
  if s.len ≤ s.cur + 1 then s.raise (.truncatedEscape s.cur) s.cur
  else
    let accepted := s.emit [.escape escapeByte] (s.cur + 1)
    match decodeSecondary s.cat c with
    | .error miss => accepted.raise (miss.at (s.cur + 1)) (s.cur + 1)
    | .ok d =>
      let available := s.len - (s.cur + 2)
      if d.trailing > available then
        accepted.raise (.truncatedOperand (s.cur + 1) d.trailing available) (s.cur + 1)
      else
        accepted.emit (instructionEntries d lits) (s.cur + 2 + d.trailing)

/-- What a step does where `decode` finds no whole instruction of the opcode table: `b` is the byte at CUR. The escape byte comes here only as the last byte of IN (R203). Every other byte takes the plain path: a catalog that extends CAT_MIN may have an entry for it (R128), and a row cut short by the end of IN raises its error there. -/
def offTablePath (b : Byte) (s : State) : State :=
  if b = escapeByte then s.raise (.truncatedEscape s.cur) s.cur
  else plainPath b (s.bytesFrom (s.cur + 1)) s

end Sys2Proof.Machine
end

