-- ==== Sys2Proof/Machine/Plain.lean ====
section
/-! DEFINITION. The meanings of the format P rows (spec 41_opcode_catalog.md R130 to R132): the plain path with the row's opcode byte and its literal bytes. -/

namespace Sys2Proof.Machine

/-- `NOP` (R130). -/
def execNop (s : State) : StepOutcome := whenEnabled s (.next (plainPath 0x00#8 [] s))

/-- `LD BC,d16` (R131). -/
def execLdBcD16 (a b : Byte) (s : State) : StepOutcome := whenEnabled s (.next (plainPath 0x01#8 [a, b] s))

/-- `LD SP,d16` (R132). -/
def execLdSpD16 (a b : Byte) (s : State) : StepOutcome := whenEnabled s (.next (plainPath 0x31#8 [a, b] s))

end Sys2Proof.Machine
end

