-- ==== Sys2Proof/Machine/Prefixed.lean ====
section
/-! DEFINITION. The meanings of the format X rows (spec 41_opcode_catalog.md R133, R134): the prefixed path. -/

namespace Sys2Proof.Machine

/-- `PREFIX` with secondary opcode `c` (R133). The row names no literal bytes; an entry that declares some takes them from IN (R164, D23). -/
def execPrefixed (c : Byte) (s : State) : StepOutcome :=
  whenEnabled s (.next (prefixedPath c (s.bytesFrom (s.cur + 2)) s))

/-- `BIT 7,H` (R134): one byte past the escape, no literal. -/
def execBit7H (s : State) : StepOutcome := whenEnabled s (.next (prefixedPath 0x7C#8 [] s))

end Sys2Proof.Machine
end

