-- ==== Sys2Proof/Machine/Dispatch.lean ====
section
/-! DEFINITION. One arm per row of the opcode table. -/

namespace Sys2Proof.Machine

def exec (i : Instr) (s : State) : Host.Outcome State Fault Refusal :=
  match i with
  | .nop => Sys2Proof.Machine.execNop s
  | .ldBcD16 a b => Sys2Proof.Machine.execLdBcD16 a b s
  | .ldSpD16 a b => Sys2Proof.Machine.execLdSpD16 a b s
  | .prefixed c => Sys2Proof.Machine.execPrefixed c s
  | .bit7H => Sys2Proof.Machine.execBit7H s

end Sys2Proof.Machine
end

