-- ==== Sys2Proof/Machine/Step.lean ====
section
/-! DEFINITION. One step of DEC: one iteration of the fetch/decode loop (spec 43_stream_assembler.md R160), atomic (D1). -/

namespace Sys2Proof.Machine

/-- One step at CUR: the end of the stream ends the pass (R161); a whole instruction of the opcode table runs its meaning; any other byte goes where R162 to R164 send it. -/
def step (s : State) : Host.Outcome State Fault Refusal :=
  whenEnabled s <|
    match s.bytesFrom s.cur with
    | [] => .next s.finish
    | b :: rest =>
      match decode (b :: rest) with
      | .ok (i, _) => exec i s
      | .error _ => .next (offTablePath b s)

/-- `s` with the bytes of a table word placed where `step` fetches next: at CUR, with LEN reaching past them, and the pass in progress. It stands for the host's supplying the image (R233; log entry 6). -/
def State.withFetchWord (s : State) (nbits w : Nat) : State :=
  let bytes := tableBytes nbits w
  { s with input := s.input.load s.cur bytes, len := max s.len (s.cur + bytes.length), outcome := .run }

end Sys2Proof.Machine
end

