-- ==== Sys2Proof/Machine/Loop.lean ====
section
/-! DEFINITION. The fetch/decode loop as the spec's own pseudocode writes it (43_stream_assembler.md R161 to R164): every byte is read from IN one at a time and every entry appended one at a time, with the bounds in the source's form `i + 1 + n <= buffer length`. `step` runs the opcode table's meanings instead; that the two agree is a statement (Obligations.StepIsTheSpecLoop). -/

namespace Sys2Proof.Machine

/-- `for k = 0 .. n-1 in ascending order: OutAppend(Literal(IN[a + k]))`. -/
def copyLiterals : Nat → Nat → State → State
  | 0, _, s => s
  | n + 1, a, s => copyLiterals n (a + 1) { s with out := s.out ++ [.literal (s.input.read a)] }

/-- The plain path of R163 at `i = CUR`. -/
def loopPlain (b : Byte) (s : State) : State :=
  match s.cat.lookupPrimary b with
  | none => s.raise (.unimplementedOpcode b false s.cur) s.cur
  | some d =>
    if s.cur + 1 + (d.totalLength - 1) ≤ s.len then
      { copyLiterals (d.totalLength - 1) (s.cur + 1) { s with out := s.out ++ [.instruction d] } with
        cur := s.cur + 1 + (d.totalLength - 1) }
    else s.raise (.truncatedOperand s.cur (d.totalLength - 1) (s.len - s.cur - 1)) s.cur

/-- The prefixed path of R164 after the escape at `i = CUR` was accepted, `c = IN[i + 1]`. -/
def loopSecondary (c : Byte) (s : State) : State :=
  match s.cat.lookupSecondary c with
  | none => s.raise (.unimplementedOpcode c true (s.cur + 1)) (s.cur + 1)
  | some d =>
    if s.cur + 2 + (d.totalLength - 1) ≤ s.len then
      { copyLiterals (d.totalLength - 1) (s.cur + 2) { s with out := s.out ++ [.instruction d] } with
        cur := s.cur + 2 + (d.totalLength - 1) }
    else s.raise (.truncatedOperand (s.cur + 1) (d.totalLength - 1) (s.len - s.cur - 2)) (s.cur + 1)

/-- Fetch, classify, then one of the two paths (R161, R162). -/
def loopStep (s : State) : State :=
  match s.byteAt s.cur with
  | none => { s with outcome := .done }
  | some b =>
    if b = escapeByte then
      match s.byteAt (s.cur + 1) with
      | none => s.raise (.truncatedEscape s.cur) s.cur
      | some c => loopSecondary c { s with out := s.out ++ [.escape b] }
    else loopPlain b s

end Sys2Proof.Machine
end

