-- ==== Sys2Proof/Machine/Program.lean ====
section
/-! DEFINITION. The Decoded Program as the host reads it after a pass (spec 44_decoded_program.md), and its re-cutting into instructions without a catalog (30_encoding.md R81). -/

namespace Sys2Proof.Machine

/-- Byte-width of an entry: 1 for each kind, whatever the descriptor's length (R191). -/
def Entry.width : Entry → Nat
  | .instruction _ => 1
  | .literal _ => 1
  | .escape _ => 1

/-- `entry(k)`: `none` past the end (R192, D22). -/
def entryAt (out : List Entry) (k : Nat) : Option Entry := out[k]?

/-- `offset_of(k)`: the sum of the byte-widths of the entries before `k`, defined for `k <= |OUT|` (R193). -/
def offsetOf (out : List Entry) (k : Nat) : Option Nat :=
  if k ≤ out.length then some ((out.take k).map Entry.width).sum else none

/-- `ENTRY_COUNT`, `entry_count()` (R33, R195). -/
def entryCount (out : List Entry) : Nat := out.length

/-- `CONSUMED`, `consumed_bytes()`: the sum over OUT of byte-width (R33, R195). -/
def consumedBytes (out : List Entry) : Nat := (out.map Entry.width).sum

/-- One instruction of a Decoded Program: whether an Escape stands before it, its descriptor, its literals (R81). -/
structure Block where
  prefixed : Bool
  descriptor : Descriptor
  literals : List Byte
deriving DecidableEq, Repr

/-- The next `n` entries, if they are all literals. -/
def takeLiterals : Nat → List Entry → Option (List Byte × List Entry)
  | 0, es => some ([], es)
  | n + 1, .literal v :: es => (takeLiterals n es).map fun p => (v :: p.1, p.2)
  | _ + 1, .instruction _ :: _ => none
  | _ + 1, .escape _ :: _ => none
  | _ + 1, [] => none

/-- "an `Instruction(d)` is followed by `d.total_length - 1` literals" (R81). -/
def cutInstruction (prefixed : Bool) : List Entry → Option (Block × List Entry)
  | .instruction d :: es => (takeLiterals d.trailing es).map fun p => (⟨prefixed, d, p.1⟩, p.2)
  | .literal _ :: _ => none
  | .escape _ :: _ => none
  | [] => none

/-- "at an `Escape`, the next entry is the instruction" (R81). -/
def cutBlock : List Entry → Option (Block × List Entry)
  | .escape _ :: es => cutInstruction true es
  | es => cutInstruction false es

/-- Walk OUT from entry 0 and cut it into instructions, `fuel` bounding their number (R81). -/
def recut : Nat → List Entry → Option (List Block)
  | _, [] => some []
  | 0, _ :: _ => none
  | fuel + 1, e :: es =>
    match cutBlock (e :: es) with
    | some (b, rest) => (recut fuel rest).map (b :: ·)
    | none => none

/-- The stream bytes of a block whose opcode byte is `op` (formats P and X of R70). -/
def Block.bytes (op : Byte) (b : Block) : List Byte :=
  (if b.prefixed then [escapeByte, op] else [op]) ++ b.literals

/-- The block's descriptor is what its space holds at `op`, and it has as many literals as that descriptor declares (R70, R81). -/
def Block.from (cat : Catalog) (op : Byte) (b : Block) : Prop :=
  (if b.prefixed then cat.lookupSecondary op else cat.lookupPrimary op) = some b.descriptor ∧
  b.literals.length = b.descriptor.trailing

end Sys2Proof.Machine
end

