-- ==== Sys2Proof/Machine/Pass.lean ====
section
/-! DEFINITION. The pass (spec 43_stream_assembler.md R166) and what the host may do outside one (70_reset_and_hazards.md R230, R231, R233, R235, R236). -/

namespace Sys2Proof.Machine

/-- The state in which a pass over an image begins: reset, with the image and the catalogs the host supplied before releasing it (R233, R36). -/
def State.start (image : List Byte) (cat : Catalog) : State :=
  { State.reset with input := Memory.ofBytes image, len := image.length, cat := cat }

/-- Steps until the first state with OUTCOME other than RUN, at most `fuel` of them (R166). -/
def runPass : Nat → State → State
  | 0, s => s
  | fuel + 1, s =>
    match step s with
    | .next t => runPass fuel t
    | .fault _ => s
    | .refused _ => s

/-- `ok`, or `err ERR` (R166). -/
inductive PassStatus where
  | ok
  | err (e : DecodeError)
deriving DecidableEq, Repr

/-- The triple the host reads (R166): OUT, the stop offset CUR, and the status. -/
structure PassResult where
  out : List Entry
  stop : Nat
  status : PassStatus
deriving DecidableEq, Repr

/-- What the host reads: the result once the pass has ended, nothing while OUTCOME = RUN (R60, R235, R236). -/
def State.hostRead (s : State) : Option PassResult :=
  match s.outcome with
  | .run => none
  | .done => some ⟨s.out, s.cur, .ok⟩
  | .fail => s.err.map fun e => ⟨s.out, s.cur, .err e⟩

/-- `run(IN, CAT)` (R166): `LEN + 1` steps are enough (R172). -/
def run (image : List Byte) (cat : Catalog) : Option PassResult :=
  (runPass (image.length + 1) (State.start image cat)).hostRead

/-- The result of the same decode made `k` bytes and the entries `before` later in a longer stream (R177). -/
def PassResult.after (before : List Entry) (k : Nat) (r : PassResult) : PassResult where
  out := before ++ r.out
  stop := k + r.stop
  status := match r.status with
    | .ok => .ok
    | .err e => .err (e.shift k)

/-- Reset in DONE or FAIL: a fresh pass over the same IN, LEN and CAT, which reset does not touch (R230, R231). Not offered during a pass (R230 lets a model leave it out; log entry 8). -/
def State.restart (s : State) : Option State :=
  match s.outcome with
  | .run => none
  | .done => some { s with cur := 0, out := [], outcome := .run, err := none }
  | .fail => some { s with cur := 0, out := [], outcome := .run, err := none }

/-- The host supplies another image, outside a pass only (R235, R236). OUT and the rest stay until the next reset (R26, R196). -/
def State.supply (image : List Byte) (s : State) : Option State :=
  match s.outcome with
  | .run => none
  | .done => some { s with input := Memory.ofBytes image, len := image.length }
  | .fail => some { s with input := Memory.ofBytes image, len := image.length }

end Sys2Proof.Machine
end

