-- ==== Sys2Proof/Safety.lean ====
section
/-! DEFINITION. What holds of DEC in every state a pass reaches (spec 10_state.md R25 to R27, R32; 43_stream_assembler.md R170, R171, R174, R176), as predicates over one state. -/

namespace Sys2Proof.Machine

/-- `CUR = |OUT|` and `CUR <= LEN` (R170, R171). -/
def Accounted (s : State) : Prop := s.cur = s.out.length ∧ s.cur ≤ s.len

/-- Legal values of the recorded fields (R32): `needed` at least 1, `available` less than `needed`. -/
def DecodeError.legal : DecodeError → Prop
  | .unimplementedOpcode _ _ _ => True
  | .truncatedOperand _ needed available => 1 ≤ needed ∧ available < needed
  | .truncatedEscape _ => True

/-- ERR is `none` while OUTCOME is RUN or DONE (R27); in FAIL it holds one error with legal fields, whose offset is the stop offset and lies inside IN (R32, R170). -/
def ErrMatches (s : State) : Prop :=
  match s.outcome with
  | .run => s.err = none
  | .done => s.err = none
  | .fail => ∃ e, s.err = some e ∧ e.offset = s.cur ∧ s.cur < s.len ∧ e.legal

/-- A pass that ended DONE consumed the whole buffer (R174). -/
def DoneAtEnd (s : State) : Prop := s.outcome = .done → s.cur = s.len

/-- The input buffer is in its canonical form and has no cell past LEN (R21, R22; log entry 2). -/
def InputCanonical (s : State) : Prop := s.input.wf = true ∧ Memory.within s.len s.input = true

/-- Entry `k - 1` exists and is an Escape. -/
def afterEscape (out : List Entry) : Nat → Prop
  | 0 => False
  | k + 1 => ∃ v, out[k]? = some (.escape v)

/-- What entry `k` says of input byte `k` (R176, R194). -/
def StandsFor (s : State) (k : Nat) : Entry → Prop
  | .escape v => v = s.input.read k ∧ v = escapeByte
  | .literal v => v = s.input.read k
  | .instruction d =>
    (afterEscape s.out k → s.cat.lookupSecondary (s.input.read k) = some d) ∧
    (¬ afterEscape s.out k → s.cat.lookupPrimary (s.input.read k) = some d)

/-- Every entry stands for the input byte at its own index; an Escape is followed by an Instruction, and is the last entry only in a failed pass (R176). -/
def OutDescribesInput (s : State) : Prop :=
  (∀ k e, s.out[k]? = some e → StandsFor s k e) ∧
  (∀ k v e, s.out[k]? = some (.escape v) → s.out[k + 1]? = some e → ∃ d, e = .instruction d) ∧
  (afterEscape s.out s.out.length → s.outcome = .fail)

/-- A safe state of DEC: all of the above. -/
structure Safe (s : State) : Prop where
  accounted : Accounted s
  errMatches : ErrMatches s
  doneAtEnd : DoneAtEnd s
  inputCanonical : InputCanonical s
  outDescribesInput : OutDescribesInput s

/-- The same table with the content of every descriptor changed by `f` (R108, R124: no step looks inside a descriptor but for its length). -/
def Table.mapDescriptors (f : Descriptor → Descriptor) (t : Table) : Table := t.map fun e => (e.1, f e.2)

/-- The same catalogs with the content of every descriptor changed by `f`. -/
def Catalog.mapDescriptors (f : Descriptor → Descriptor) (c : Catalog) : Catalog where
  primary := Table.mapDescriptors f c.primary
  secondary := Table.mapDescriptors f c.secondary

/-- The same entry with its descriptor, if it has one, changed by `f`. -/
def Entry.mapDescriptor (f : Descriptor → Descriptor) : Entry → Entry
  | .instruction d => .instruction (f d)
  | .literal v => .literal v
  | .escape v => .escape v

/-- The same state over changed descriptors, those already in OUT included. -/
def State.mapDescriptors (f : Descriptor → Descriptor) (s : State) : State :=
  { s with cat := s.cat.mapDescriptors f, out := s.out.map (Entry.mapDescriptor f) }

end Sys2Proof.Machine
end

