-- ==== Sys2Proof/Certificates/Slice0/Obligations.lean ====
section
/-! DEFINITION. The statements about DEC, each from the rules of spec/ its docstring names. -/

open Sys2Proof Sys2Proof.Machine

/-! ### Encoding -/

/-- Decoding the bytes of a well-formed instruction gives that instruction back with every operand byte, and leaves the rest of the stream (30_encoding.md R70, R73). -/
def Obligations.DecodeReadsEncodedInstruction : Prop :=
  ∀ (i : Instr) (rest : List Byte), i.wf = true → decode (encode i ++ rest) = .ok (i, rest)

/-- Where decoding finds an instruction, it is well-formed and its encoding is exactly the bytes decoding took: each byte list has one reading (R70, R73, R83). -/
def Obligations.DecodedBytesAreTheEncoding : Prop :=
  ∀ (bs rest : List Byte) (i : Instr), decode bs = .ok (i, rest) → i.wf = true ∧ encode i ++ rest = bs

/-- When decoding refuses, and by which name: nothing left (R161), a lone escape byte (R203), a load cut short (R202), a byte of no row (R78). -/
def Obligations.DecodeRefusesByName : Prop :=
  ∀ bs : List Byte,
    (decode bs = .error .endOfStream ↔ bs = []) ∧
    (decode bs = .error .loneEscape ↔ bs = [escapeByte]) ∧
    (∀ (op : Byte) (n a : Nat), decode bs = .error (.cutShort op n a) ↔
      (op = 0x01#8 ∨ op = 0x31#8) ∧ n = 2 ∧ a < 2 ∧ ∃ lits, bs = op :: lits ∧ lits.length = a) ∧
    (∀ op : Byte, decode bs = .error (.noRow op) ↔
      op ≠ escapeByte ∧ op ≠ 0x00#8 ∧ op ≠ 0x01#8 ∧ op ≠ 0x31#8 ∧ ∃ rest, bs = op :: rest)

/-- The words of the opcode table, written out from its `encoding` column, decode to the rows they stand for; 0x7C on the plain path is no row (R77, R83, R134). -/
def Obligations.TableWordsDecode : Prop :=
  decode [0b00000000#8] = .ok (.nop, []) ∧
  decode [0b00000001#8, 0x34#8, 0x12#8] = .ok (.ldBcD16 0x34#8 0x12#8, []) ∧
  decode [0b00110001#8, 0xFE#8, 0xFF#8] = .ok (.ldSpD16 0xFE#8 0xFF#8, []) ∧
  decode [0b11001011#8, 0b00010001#8] = .ok (.prefixed 0x11#8, []) ∧
  decode [0b11001011#8, 0b01111100#8] = .ok (.bit7H, []) ∧
  decode [0b01111100#8] = .error (.noRow 0x7C#8)

/-! ### Catalogs and the two decode functions -/

/-- `decode_primary` and `decode_secondary` over every catalog and byte, with the rules' corner cases and examples (R150, R151). -/
def Obligations.DecodeFunctionsFollowTheCatalog : Prop :=
  (∀ (c : Catalog) (b : Byte) (d : Descriptor), c.lookupPrimary b = some d → decodePrimary c b = .ok d) ∧
  (∀ (c : Catalog) (b : Byte), c.lookupPrimary b = none → decodePrimary c b = .error ⟨b, false⟩) ∧
  (∀ (c : Catalog) (b : Byte) (d : Descriptor), c.lookupSecondary b = some d → decodeSecondary c b = .ok d) ∧
  (∀ (c : Catalog) (b : Byte), c.lookupSecondary b = none → decodeSecondary c b = .error ⟨b, true⟩) ∧
  (∀ c : Catalog, c.wf = true → decodePrimary c escapeByte = .error ⟨0xCB#8, false⟩) ∧
  decodePrimary catMin 0x31#8 = .ok ⟨.ld (.operand (.r16 .sp)) .imm16, 3, 3⟩ ∧
  decodePrimary catMin 0x02#8 = .error ⟨0x02#8, false⟩ ∧
  decodeSecondary catMin 0x7C#8 = .ok ⟨.bit 7 .h, 1, 2⟩ ∧
  decodeSecondary catMin 0x7D#8 = .error ⟨0x7D#8, true⟩

/-- `CAT_MIN` is well-formed and holds exactly the entries R135 gives it. Its cycle costs for 0x00, 0x01 and CB 7C and the mnemonic of 0x01 are the spec's own choice (D10, D11; log entry 11). -/
def Obligations.BaselineCatalogContent : Prop :=
  catMin.wf = true ∧
  (∀ b : Byte, catMin.lookupPrimary b =
    if b = 0x00#8 then some ⟨.nop, 1, 1⟩
    else if b = 0x01#8 then some ⟨.ld (.operand (.r16 .bc)) .imm16, 3, 3⟩
    else if b = 0x31#8 then some ⟨.ld (.operand (.r16 .sp)) .imm16, 3, 3⟩ else none) ∧
  (∀ b : Byte, catMin.lookupSecondary b = if b = 0x7C#8 then some ⟨.bit 7 .h, 1, 2⟩ else none)

/-- The two lookups (R120, R121): `some d` exactly where the space has the entry `d` at that byte, `none` where it has no entry; each reads its own table only; and the rules' examples in CAT_MIN. -/
def Obligations.LookupFindsTheEntryOfItsSpace : Prop :=
  (∀ (c : Catalog) (b : Byte) (d : Descriptor), c.wf = true →
    (c.lookupPrimary b = some d ↔ (b, d) ∈ c.primary) ∧
    (c.lookupSecondary b = some d ↔ (b, d) ∈ c.secondary)) ∧
  (∀ (c : Catalog) (b : Byte), c.wf = true →
    (c.lookupPrimary b = none ↔ ∀ d, (b, d) ∉ c.primary) ∧
    (c.lookupSecondary b = none ↔ ∀ d, (b, d) ∉ c.secondary)) ∧
  (∀ (c c' : Catalog) (b : Byte), c.primary = c'.primary → c.lookupPrimary b = c'.lookupPrimary b) ∧
  (∀ (c c' : Catalog) (b : Byte), c.secondary = c'.secondary → c.lookupSecondary b = c'.lookupSecondary b) ∧
  catMin.lookupPrimary 0x00#8 = some ⟨.nop, 1, 1⟩ ∧ catMin.lookupPrimary 0xCB#8 = none ∧
  catMin.lookupSecondary 0x7C#8 = some ⟨.bit 7 .h, 1, 2⟩ ∧ catMin.lookupSecondary 0x00#8 = none

/-- Every entry of a well-formed catalog has `total_length >= 1` and `cycle_cost >= 1` (R127 clause a, R124). -/
def Obligations.CatalogEntriesHaveTheirInvariants : Prop :=
  ∀ (c : Catalog) (b : Byte) (d : Descriptor), c.wf = true →
    (c.lookupPrimary b = some d ∨ c.lookupSecondary b = some d) → 1 ≤ d.totalLength ∧ 1 ≤ d.cycleCost

/-! ### The instructions: where each completes and with what -/

/-- NOP completes in every enabled state: it appends its entry and advances CUR by 1; nothing else changes (41_opcode_catalog.md section 3). Its cycle cost is the spec's own choice (D10; log entry 11). -/
def Obligations.NopEmitsItsEntry : Prop :=
  ∀ s : State, s.outcome = .run → s.cat.wf = true →
    exec .nop s = .next { s with out := s.out ++ [.instruction ⟨.nop, 1, 1⟩], cur := s.cur + 1 }

/-- LD BC,d16 and LD SP,d16 complete when both literal bytes are there: the entry, the two literals unchanged and in stream order, CUR + 3; nothing else changes. The mnemonic of 0x01, its cycle cost and the IMM16 spelling are the spec's own choice (D10, D11, D12; log entry 11). -/
def Obligations.LoadsEmitEntryAndLiterals : Prop :=
  ∀ (s : State) (a b : Byte), s.outcome = .run → s.cat.wf = true → s.cur + 3 ≤ s.len →
    exec (.ldBcD16 a b) s = .next { s with
      out := s.out ++ [.instruction ⟨.ld (.operand (.r16 .bc)) .imm16, 3, 3⟩, .literal a, .literal b]
      cur := s.cur + 3 } ∧
    exec (.ldSpD16 a b) s = .next { s with
      out := s.out ++ [.instruction ⟨.ld (.operand (.r16 .sp)) .imm16, 3, 3⟩, .literal a, .literal b]
      cur := s.cur + 3 }

/-- BIT 7,H completes when both its bytes are there: Escape, its entry, CUR + 2, no literal; nothing else changes. Its cycle cost is the spec's own choice (D10; log entry 11). -/
def Obligations.BitTestEmitsEscapeAndEntry : Prop :=
  ∀ s : State, s.outcome = .run → s.cat.wf = true → s.cur + 2 ≤ s.len →
    exec .bit7H s = .next { s with
      out := s.out ++ [.escape 0xCB#8, .instruction ⟨.bit 7 .h, 1, 2⟩], cur := s.cur + 2 }

/-- PREFIX with a secondary opcode that has an entry completes when the declared literals are there: Escape, the entry of the secondary space, its `n = total_length - 1` literals copied from IN, CUR + 2 + n; nothing else changes (43_stream_assembler.md section 1, the prefixed path; the general case n > 0 is D23). -/
def Obligations.PrefixEmitsSecondaryInstruction : Prop :=
  ∀ (s : State) (c : Byte) (d : Descriptor), s.outcome = .run → s.cat.wf = true →
    s.cat.lookupSecondary c = some d → s.cur + 2 + (d.totalLength - 1) ≤ s.len →
    exec (.prefixed c) s = .next { s with
      out := s.out ++ .escape 0xCB#8 :: .instruction d ::
        (s.input.slice (s.cur + 2) (d.totalLength - 1)).map .literal
      cur := s.cur + 2 + (d.totalLength - 1) }

/-! ### The instructions: where each raises an error -/

/-- A load with fewer than two bytes after its opcode raises TruncatedOperand: `needed` 2, `available` the bytes after the opcode; nothing is appended and CUR stays (60_exceptions.md section 1; the order of test and append and the meaning of `available` are D5 and D7, log entry 12). -/
def Obligations.LoadsCutShortRaise : Prop :=
  ∀ (s : State) (a b : Byte), s.outcome = .run → s.cat.wf = true → s.cur < s.len → s.len < s.cur + 3 →
    exec (.ldBcD16 a b) s = .next { s with
      err := some (.truncatedOperand s.cur 2 (s.len - (s.cur + 1))), outcome := .fail } ∧
    exec (.ldSpD16 a b) s = .next { s with
      err := some (.truncatedOperand s.cur 2 (s.len - (s.cur + 1))), outcome := .fail }

/-- A secondary opcode with no entry raises UnimplementedOpcode at its own offset; the accepted Escape entry stays in OUT and CUR is left at that offset (the spec's own decision D6; log entry 12). -/
def Obligations.SecondaryMissKeepsTheEscape : Prop :=
  ∀ (s : State) (c : Byte), s.outcome = .run → s.cat.wf = true → s.cur + 2 ≤ s.len →
    s.cat.lookupSecondary c = none →
    exec (.prefixed c) s = .next { s with
      out := s.out ++ [.escape 0xCB#8], cur := s.cur + 1
      err := some (.unimplementedOpcode c true (s.cur + 1)), outcome := .fail }

/-- A secondary entry whose literals run past the end raises TruncatedOperand at the secondary opcode's offset; the Escape entry stays (the spec's own decision D6; log entry 12). -/
def Obligations.SecondaryOperandsCutShortRaise : Prop :=
  ∀ (s : State) (c : Byte) (d : Descriptor), s.outcome = .run → s.cat.wf = true → s.cur + 2 ≤ s.len →
    s.cat.lookupSecondary c = some d → s.len < s.cur + 2 + (d.totalLength - 1) →
    exec (.prefixed c) s = .next { s with
      out := s.out ++ [.escape 0xCB#8], cur := s.cur + 1
      err := some (.truncatedOperand (s.cur + 1) (d.totalLength - 1) (s.len - (s.cur + 2)))
      outcome := .fail }

/-- TruncatedEscape (R203): the escape byte as the last byte of IN, where an instruction starts, raises it with the offset of the escape byte, appends nothing and leaves CUR; the format X rows raise it in the same place; nothing else raises it; and the rule's example. -/
def Obligations.LoneEscapeRaises : Prop :=
  (∀ s : State, s.outcome = .run → s.cat.wf = true → s.cur + 1 = s.len → s.input.read s.cur = 0xCB#8 →
    step s = .next { s with err := some (.truncatedEscape s.cur), outcome := .fail }) ∧
  (∀ (s : State) (c : Byte), s.outcome = .run → s.cat.wf = true → s.len ≤ s.cur + 1 →
    exec (.prefixed c) s = .next { s with err := some (.truncatedEscape s.cur), outcome := .fail } ∧
    exec .bit7H s = .next { s with err := some (.truncatedEscape s.cur), outcome := .fail }) ∧
  (∀ (s t : State) (o : Nat), s.err = none → step s = .next t → t.err = some (.truncatedEscape o) →
    s.cur + 1 = s.len ∧ s.input.read s.cur = 0xCB#8 ∧ o = s.cur) ∧
  run [0x00#8, 0xCB#8] catMin = some ⟨[.instruction dNop], 1, .err (.truncatedEscape 1)⟩

/-! ### The step -/

/-- When the bytes at CUR decode to an instruction, the step is that instruction's meaning, and the instruction's bytes are those IN holds at CUR (R50, R160). The step adds nothing around it. -/
def Obligations.StepRunsTheDecodedInstruction : Prop :=
  ∀ (s : State) (i : Instr) (rest : List Byte), s.outcome = .run → s.cat.wf = true →
    decode (s.bytesFrom s.cur) = .ok (i, rest) →
    step s = exec i s ∧ i.wf = true ∧ s.cur + (encode i).length ≤ s.len ∧
      s.input.slice s.cur (encode i).length = encode i

/-- What the step does where decoding finds no whole instruction, for each name of the refusal: the pass ends DONE, or the error of the cut instruction is raised, or the byte's own entry in a larger catalog decides (R128, R161, R201, R202, R203). -/
def Obligations.StepOffTheTable : Prop :=
  ∀ s : State, s.outcome = .run → s.cat.wf = true →
    (decode (s.bytesFrom s.cur) = .error .endOfStream → step s = .next { s with outcome := .done }) ∧
    (decode (s.bytesFrom s.cur) = .error .loneEscape →
      step s = .next { s with err := some (.truncatedEscape s.cur), outcome := .fail }) ∧
    (∀ (op : Byte) (n a : Nat), decode (s.bytesFrom s.cur) = .error (.cutShort op n a) →
      step s = .next { s with err := some (.truncatedOperand s.cur n a), outcome := .fail }) ∧
    (∀ op : Byte, decode (s.bytesFrom s.cur) = .error (.noRow op) →
      (s.cat.lookupPrimary op = none → step s = .next { s with
        err := some (.unimplementedOpcode op false s.cur), outcome := .fail }) ∧
      (∀ d, s.cat.lookupPrimary op = some d → s.cur + 1 + (d.totalLength - 1) ≤ s.len →
        step s = .next { s with
          out := s.out ++ .instruction d :: (s.input.slice (s.cur + 1) (d.totalLength - 1)).map .literal
          cur := s.cur + 1 + (d.totalLength - 1) }) ∧
      (∀ d, s.cat.lookupPrimary op = some d → s.len < s.cur + 1 + (d.totalLength - 1) →
        step s = .next { s with
          err := some (.truncatedOperand s.cur (d.totalLength - 1) (s.len - (s.cur + 1)))
          outcome := .fail }))

/-- The step, which runs the opcode table's meanings, is the spec's own fetch/decode loop, which reads the catalogs and IN byte by byte (R160 to R164). -/
def Obligations.StepIsTheSpecLoop : Prop :=
  ∀ s : State, s.outcome = .run → s.cat.wf = true → step s = .next (loopStep s)

/-- A step is enabled exactly when OUTCOME = RUN (R26, R160) and the catalog is one the spec gives a meaning to (R127); otherwise it stops under the name that says why. That it stops so is the model's choice (log entries 3 and 5). -/
def Obligations.StepEnabledExactlyInRun : Prop :=
  ∀ s : State,
    ((∃ t, step s = .next t) ↔ s.outcome = .run ∧ s.cat.wf = true) ∧
    (s.outcome ≠ .run → step s = .fault .passEnded) ∧
    (s.outcome = .run → s.cat.wf = false → step s = .refused .illFormedCatalog)

/-- Fetch (R161): at CUR >= LEN the pass ends DONE and CUR, OUT, ERR stay; an empty buffer ends in its first step; nowhere else does a step end the pass normally. -/
def Obligations.EndOfStreamEndsThePass : Prop :=
  (∀ s : State, s.outcome = .run → s.cat.wf = true → s.len ≤ s.cur →
    step s = .next { s with outcome := .done }) ∧
  (∀ cat : Catalog, cat.wf = true →
    step (State.start [] cat) = .next { State.start [] cat with outcome := .done } ∧
    run [] cat = some ⟨[], 0, .ok⟩) ∧
  (∀ s t : State, step s = .next t → s.cur < s.len → t.outcome ≠ .done)

/-- Frame of every instruction of the table and of the step: IN (every byte of it), LEN and the catalogs are unchanged; OUT keeps every entry it had; ERR is unchanged unless the pass fails; CUR does not fall (10_state.md sections 2 and 3, R25, R27, R171). -/
def Obligations.InstructionsLeaveTheRestUnchanged : Prop :=
  ∀ (s t : State), (step s = .next t ∨ ∃ i, exec i s = .next t) →
    t.input = s.input ∧ t.len = s.len ∧ t.cat = s.cat ∧ (∀ a, t.byteAt a = s.byteAt a) ∧
    s.out <+: t.out ∧ s.cur ≤ t.cur ∧ (t.outcome ≠ .fail → t.err = s.err)

/-- The failure policy (R165): the failing step writes ERR and OUTCOME, appends nothing after the error, and there is no next state after it; the host then reads the error with the partial program and the stop offset. IN, LEN and the catalogs are as they were. -/
def Obligations.FirstErrorStopsThePass : Prop :=
  ∀ s t : State, step s = .next t → t.outcome = .fail →
    ∃ e, t.err = some e ∧ t.hostRead = some ⟨t.out, t.cur, .err e⟩ ∧ s.out <+: t.out ∧
      t.input = s.input ∧ t.len = s.len ∧ t.cat = s.cat ∧
      (∀ u, step t ≠ .next u) ∧ ∀ n, runPass n t = t

/-- What a failing step leaves (60_exceptions.md section 3): the stop offset is the error's offset; OUT has no entry of the failing instruction but an accepted Escape, and CUR counts exactly that one. That the Escape stays is the spec's own decision D6 (log entry 12). -/
def Obligations.FailingInstructionLeavesNoEntryButItsEscape : Prop :=
  ∀ s t : State, step s = .next t → t.outcome = .fail →
    (∃ e, t.err = some e ∧ e.offset = t.cur) ∧
    ((t.out = s.out ∧ t.cur = s.cur) ∨
      (t.out = s.out ++ [.escape 0xCB#8] ∧ t.cur = s.cur + 1 ∧ s.input.read s.cur = 0xCB#8))

/-- The causes of failure are the three of 60_exceptions.md section 1 and no other: with a byte to fetch, a step fails exactly when its lookup misses, its literals run past the end, or its escape byte is the last byte. -/
def Obligations.OnlyTheThreeCausesFail : Prop :=
  ∀ s t : State, step s = .next t →
    (t.outcome = .fail ↔ s.cur < s.len ∧
      ((s.input.read s.cur ≠ escapeByte ∧
          (s.cat.lookupPrimary (s.input.read s.cur) = none ∨
            ∃ d, s.cat.lookupPrimary (s.input.read s.cur) = some d ∧
              s.len < s.cur + 1 + (d.totalLength - 1))) ∨
        (s.input.read s.cur = escapeByte ∧
          (s.cur + 1 = s.len ∨ s.cat.lookupSecondary (s.input.read (s.cur + 1)) = none ∨
            ∃ d, s.cat.lookupSecondary (s.input.read (s.cur + 1)) = some d ∧
              s.len < s.cur + 2 + (d.totalLength - 1)))))

/-- The meaning of `total_length` (R123): a step that decodes a primary entry of length L takes L bytes of the stream, one entry each; a secondary entry of length L takes 1 + L, the escape byte being accounted for separately; and the rule's example, BIT 7,H. -/
def Obligations.LengthsCountTheBytesOfTheirSpace : Prop :=
  (∀ s t : State, step s = .next t → t.outcome = .run →
    (s.input.read s.cur ≠ escapeByte → ∃ d, s.cat.lookupPrimary (s.input.read s.cur) = some d ∧
      t.cur = s.cur + d.totalLength ∧ t.out.length = s.out.length + d.totalLength) ∧
    (s.input.read s.cur = escapeByte → ∃ d, s.cat.lookupSecondary (s.input.read (s.cur + 1)) = some d ∧
      t.cur = s.cur + (1 + d.totalLength) ∧ t.out.length = s.out.length + (1 + d.totalLength))) ∧
  (∀ cat : Catalog, cat.wf = true →
    ∃ d, cat.lookupSecondary 0x7C#8 = some d ∧ d.totalLength = 1 ∧ (encode .bit7H).length = 2 ∧
      encode .bit7H = [0xCB#8, 0x7C#8])

/-- No read of IN at an offset >= LEN (R53): bytes placed there change no step. -/
def Obligations.NoReadPastTheInput : Prop :=
  ∀ (s t : State) (m : Memory), (∀ a, a < s.len → m.read a = s.input.read a) →
    step s = .next t → step { s with input := m } = .next { t with input := m }

/-- No step looks inside a descriptor but for its length (R108, R124): replace every descriptor, in the catalogs and in OUT, by one of the same length, the four fixed ones by themselves, and every step is the same but for that replacement. -/
def Obligations.DescriptorContentIsOpaque : Prop :=
  ∀ (f : Descriptor → Descriptor) (s t : State),
    (∀ d, (f d).totalLength = d.totalLength ∧ (1 ≤ d.cycleCost → 1 ≤ (f d).cycleCost)) →
    f dNop = dNop → f dLdBc = dLdBc → f dLdSp = dLdSp → f dBit7H = dBit7H →
    step s = .next t → step (s.mapDescriptors f) = .next (t.mapDescriptors f)

/-- With secondary entries of length 1 only, as in CAT_MIN, the prefixed path never raises TruncatedOperand (R164, D23). -/
def Obligations.SecondaryTruncationUnreachable : Prop :=
  ∀ s t : State, (∀ c d, s.cat.lookupSecondary c = some d → d.totalLength = 1) → s.err = none →
    s.input.read s.cur = escapeByte → step s = .next t →
    ∀ offset needed available, t.err ≠ some (.truncatedOperand offset needed available)

/-! ### Invariants -/

/-- Every step keeps a state safe: accounting, bounds, ERR against OUTCOME, the canonical input buffer, and OUT standing entry by entry for the bytes of IN (R27, R32, R170, R171, R174, R176). -/
def Obligations.StepKeepsSafe : Prop :=
  ∀ s t : State, Safe s → step s = .next t → Safe t

/-- The reset state is safe, and so is the start of a pass over any image with any catalog (R21, R36). -/
def Obligations.StartIsSafe : Prop :=
  Safe State.reset ∧ ∀ (image : List Byte) (cat : Catalog), Safe (State.start image cat)

/-- What reset leaves (R36, R230, D3): CUR 0, OUT empty, OUTCOME RUN, ERR none, both counts 0, and IN, LEN, CAT as the host supplied them, byte for byte. -/
def Obligations.StartHoldsTheImage : Prop :=
  ∀ (image : List Byte) (cat : Catalog),
    (State.start image cat).cur = 0 ∧ (State.start image cat).out = [] ∧
    (State.start image cat).outcome = .run ∧ (State.start image cat).err = none ∧
    entryCount (State.start image cat).out = 0 ∧ consumedBytes (State.start image cat).out = 0 ∧
    (State.start image cat).len = image.length ∧ (State.start image cat).cat = cat ∧
    ∀ a, (State.start image cat).byteAt a = image[a]?

/-- Accounting (R170): `CUR = |OUT|` and `CUR <= LEN` are kept by every step, with no other premise. -/
def Obligations.StepKeepsAccounting : Prop :=
  ∀ s t : State, Accounted s → step s = .next t → Accounted t

/-- ERR (R27): written only by a step that sets OUTCOME to FAIL, which always writes it; never again after it; `none` in every state of a pass with OUTCOME RUN or DONE. -/
def Obligations.ErrorWrittenOnceByTheFailingStep : Prop :=
  (∀ s t : State, step s = .next t → t.err ≠ s.err → s.outcome = .run ∧ t.outcome = .fail) ∧
  (∀ s t : State, step s = .next t → t.outcome = .fail → ∃ e, t.err = some e) ∧
  (∀ s t : State, s.outcome = .fail → step s ≠ .next t) ∧
  (∀ (image : List Byte) (cat : Catalog) (k : Nat),
    (runPass k (State.start image cat)).outcome ≠ .fail → (runPass k (State.start image cat)).err = none)

/-- OUT (R25): a step only appends; `|OUT| <= LEN` always; no reader before the pass completes. -/
def Obligations.OutputIsAppendOnly : Prop :=
  (∀ s t : State, step s = .next t → ∃ es, t.out = s.out ++ es) ∧
  (∀ (image : List Byte) (cat : Catalog) (k : Nat),
    (runPass k (State.start image cat)).out.length ≤ image.length) ∧
  (∀ s : State, s.outcome = .run → s.hostRead = none)

/-- Progress (R171): CUR never falls; a step that leaves the pass running advances it by at least 1, by at least 2 on the prefixed path, and never past LEN. -/
def Obligations.DecodingAdvancesWithinTheInput : Prop :=
  ∀ s t : State, step s = .next t →
    s.cur ≤ t.cur ∧
    (t.outcome = .run → s.cur + 1 ≤ t.cur ∧ t.cur ≤ t.len) ∧
    (t.outcome = .run → s.input.read s.cur = escapeByte → s.cur + 2 ≤ t.cur)

/-! ### The pass -/

/-- A pass over any image with any well-formed catalog ends within `LEN + 1` steps and has a result (R172). -/
def Obligations.PassEndsWithinLengthPlusOneSteps : Prop :=
  ∀ (image : List Byte) (cat : Catalog), cat.wf = true →
    (runPass (image.length + 1) (State.start image cat)).outcome ≠ .run ∧ ∃ r, run image cat = some r

/-- The byte-accounting invariant (R174): a pass that ends DONE accounts for every byte of the image. -/
def Obligations.DonePassConsumesTheWholeImage : Prop :=
  ∀ (image : List Byte) (cat : Catalog) (r : PassResult), run image cat = some r → r.status = .ok →
    r.out.length = image.length ∧ consumedBytes r.out = image.length ∧ r.stop = image.length

/-- In a pass that fails, the stop offset, the offset of the error, the entry count and the consumed bytes are one number, less than LEN (R170, R195). -/
def Obligations.FailedPassStopsAtTheErrorOffset : Prop :=
  ∀ (image : List Byte) (cat : Catalog) (r : PassResult) (e : DecodeError), run image cat = some r →
    r.status = .err e →
    e.offset = r.stop ∧ r.out.length = r.stop ∧ consumedBytes r.out = r.stop ∧ r.stop < image.length

/-- Reset does not touch IN, LEN or CAT and a pass does not change them, so a second pass gives the same result (R231). -/
def Obligations.SecondPassGivesTheSameResult : Prop :=
  ∀ (image : List Byte) (cat : Catalog), cat.wf = true →
    ∃ r, (runPass (image.length + 1) (State.start image cat)).restart = some r ∧
      r.input = Memory.ofBytes image ∧ r.len = image.length ∧ r.cat = cat ∧
      (runPass (image.length + 1) r).hostRead = run image cat

/-- Concatenation (R177): after an image that decodes fully, a second image decodes as it does alone, every offset raised by the length of the first. -/
def Obligations.ConcatenatedImagesDecodeInTurn : Prop :=
  ∀ (x y : List Byte) (cat : Catalog) (o : List Entry) (r : PassResult),
    run x cat = some ⟨o, x.length, .ok⟩ → run y cat = some r →
    run (x ++ y) cat = some (r.after o x.length)

/-- Catalog growth (R128): entries added to a catalog change only a pass that met a missing entry, and leave what it had decoded. -/
def Obligations.CatalogGrowthChangesOnlyMisses : Prop :=
  ∀ (image : List Byte) (cat cat' : Catalog) (r : PassResult), cat.wf = true → cat'.wf = true → cat.le cat' →
    run image cat = some r →
    ((∀ b p o, r.status ≠ .err (.unimplementedOpcode b p o)) → run image cat' = some r) ∧
    (∃ r', run image cat' = some r' ∧ r.out <+: r'.out ∧ r.stop ≤ r'.stop)

/-- A pass stopped by a missing entry depends on no byte past the one that missed (R173): any image with the same bytes up to there gives the same result. -/
def Obligations.BytesPastAMissAreNotRead : Prop :=
  ∀ (x y : List Byte) (cat : Catalog) (o : List Entry) (k : Nat) (b : Byte) (p : Bool),
    run x cat = some ⟨o, k, .err (.unimplementedOpcode b p k)⟩ → y.take (k + 1) = x.take (k + 1) →
    run y cat = run x cat

/-- Every entry of a pass's result stands for the image byte at its own index, the carried bytes unchanged (R176, R194). -/
def Obligations.EntriesStandForTheirBytes : Prop :=
  ∀ (image : List Byte) (cat : Catalog) (r : PassResult) (k : Nat), run image cat = some r →
    (∀ v, r.out[k]? = some (.literal v) → image[k]? = some v) ∧
    (∀ v, r.out[k]? = some (.escape v) → image[k]? = some v ∧ v = 0xCB#8) ∧
    (∀ d, r.out[k]? = some (.instruction d) → ∃ b, image[k]? = some b ∧
      ((afterEscape r.out k ∧ cat.lookupSecondary b = some d) ∨
        (¬ afterEscape r.out k ∧ cat.lookupPrimary b = some d)))

/-- A complete OUT can be cut into instructions without a catalog (R81), and the cut is the image: with an opcode byte for each block, the blocks' bytes joined are the image, each block holding what its space has at that byte and as many literals as it declares. -/
def Obligations.CompleteProgramRecutsToTheImage : Prop :=
  ∀ (image : List Byte) (cat : Catalog) (o : List Entry) (n : Nat), run image cat = some ⟨o, n, .ok⟩ →
    ∃ coded : List (Byte × Block), recut o.length o = some (coded.map Prod.snd) ∧
      (coded.flatMap fun p => p.2.bytes p.1) = image ∧ ∀ p ∈ coded, p.2.from cat p.1

/-- Only the first byte of an instruction is compared with the escape byte (R74): where an entry of either space declares `n = total_length - 1` literals, the next `n` bytes are its literals whatever their values, 0xCB included; a 0xCB right after the escape byte is an ordinary secondary opcode; and whatever image follows decodes as it does alone. The two loads of the opcode table, named by their bytes, are in the third clause; the mnemonic of 0x01, its cycle cost and the IMM16 spelling are the spec's own choice (D10, D11, D12; log entry 11). -/
def Obligations.LiteralsAreNeverDecoded : Prop :=
  ∀ (y : List Byte) (cat : Catalog) (r : PassResult), run y cat = some r →
    (∀ (op : Byte) (d : Descriptor) (lits : List Byte), cat.lookupPrimary op = some d →
      lits.length = d.totalLength - 1 →
      run (op :: (lits ++ y)) cat = some (r.after (.instruction d :: lits.map .literal) d.totalLength)) ∧
    (∀ (op : Byte) (d : Descriptor) (lits : List Byte), cat.lookupSecondary op = some d →
      lits.length = d.totalLength - 1 →
      run (0xCB#8 :: op :: (lits ++ y)) cat =
        some (r.after (.escape 0xCB#8 :: .instruction d :: lits.map .literal) (1 + d.totalLength))) ∧
    (∀ a b : Byte,
      run (0x01#8 :: a :: b :: y) cat =
        some (r.after [.instruction ⟨.ld (.operand (.r16 .bc)) .imm16, 3, 3⟩, .literal a, .literal b] 3) ∧
      run (0x31#8 :: a :: b :: y) cat =
        some (r.after [.instruction ⟨.ld (.operand (.r16 .sp)) .imm16, 3, 3⟩, .literal a, .literal b] 3))

/-! ### The host's side -/

/-- The byte-width of every entry is 1, whatever its length (R191). -/
def Obligations.EveryEntryIsOneByteWide : Prop :=
  (∀ d, (Entry.instruction d).width = 1) ∧ (∀ v, (Entry.literal v).width = 1) ∧ (∀ v, (Entry.escape v).width = 1)

/-- The read operations (R192, R193, R195): `offset_of(k) = k` up to the entry count and undefined past it, `entry(k)` is the entry or `none` (that it is `none` past the end is D22, log entry 12), and the counts agree. -/
def Obligations.OffsetOfAnEntryIsItsIndex : Prop :=
  ∀ (out : List Entry) (k : Nat),
    (k ≤ out.length → offsetOf out k = some k) ∧ (out.length < k → offsetOf out k = none) ∧
    (∀ h : k < out.length, entryAt out k = some out[k]) ∧ (out.length ≤ k → entryAt out k = none) ∧
    entryCount out = out.length ∧ consumedBytes out = out.length ∧ offsetOf out out.length = some (consumedBytes out)

/-- The host's moves (R230, R235, R236): none while OUTCOME = RUN; outside a pass, reset gives the reset values over the same IN, LEN and CAT, and supplying an image changes IN and LEN alone. That no reset is offered during a pass is the model's choice, which R230 allows (log entry 8). -/
def Obligations.HostMovesOnlyOutsideAPass : Prop :=
  ∀ (s : State) (image : List Byte),
    (s.outcome = .run → s.hostRead = none ∧ s.restart = none ∧ s.supply image = none) ∧
    (s.outcome ≠ .run →
      s.restart = some { s with cur := 0, out := [], outcome := .run, err := none } ∧
      s.supply image = some { s with input := Memory.ofBytes image, len := image.length }) ∧
    (s.outcome = .done → s.hostRead = some ⟨s.out, s.cur, .ok⟩) ∧
    (∀ e, s.outcome = .fail → s.err = some e → s.hostRead = some ⟨s.out, s.cur, .err e⟩)

/-- The status registers of ERR: which field is valid for which kind (R32), and the numbers of the kinds, which are the spec's own choice (R204, D17; log entry 10). -/
def Obligations.ErrorRecordViews : Prop :=
  (errKind none = 0 ∧ errByte none = none ∧ errPrefixed none = none ∧ errOffset none = none ∧
    errNeeded none = none ∧ errAvailable none = none) ∧
  (∀ b p o, let e := some (DecodeError.unimplementedOpcode b p o)
    errKind e = 1 ∧ errByte e = some b ∧ errPrefixed e = some p ∧ errOffset e = some o ∧
    errNeeded e = none ∧ errAvailable e = none) ∧
  (∀ o n a, let e := some (DecodeError.truncatedOperand o n a)
    errKind e = 2 ∧ errByte e = none ∧ errPrefixed e = none ∧ errOffset e = some o ∧
    errNeeded e = some n ∧ errAvailable e = some a) ∧
  (∀ o, let e := some (DecodeError.truncatedEscape o)
    errKind e = 3 ∧ errByte e = none ∧ errPrefixed e = none ∧ errOffset e = some o ∧
    errNeeded e = none ∧ errAvailable e = none)
end

