-- ==== Sys2Proof/Laws/Catalog.lean ====
section
/-! SUPPORT. What a well-formed catalog gives (spec 41_opcode_catalog.md R127). -/

namespace Sys2Proof.Machine

theorem Table.wf_entry {t : Table} {b : Byte} {d : Descriptor} (ht : Table.wf t = true)
    (h : Table.entry t b = some d) : 1 ≤ d.totalLength ∧ 1 ≤ d.cycleCost := by
  have hall : t.all (fun e => e.2.wf) = true := by
    simp only [Table.wf, Bool.and_eq_true] at ht; exact ht.2
  clear ht
  induction t with
  | nil => simp [Table.entry] at h
  | cons e t ih =>
    simp only [List.all_cons, Bool.and_eq_true] at hall
    simp only [Table.entry] at h
    split_ifs at h
    · cases h
      simpa [Descriptor.wf] using hall.1
    · exact ih h hall.2

/-- The clauses of R127, taken apart once. -/
theorem Catalog.wf_clauses {c : Catalog} (h : c.wf = true) :
    Table.wf c.primary = true ∧ Table.wf c.secondary = true ∧ c.lookupPrimary escapeByte = none ∧
    c.lookupPrimary 0x00#8 = some dNop ∧ c.lookupPrimary 0x01#8 = some dLdBc ∧
    c.lookupPrimary 0x31#8 = some dLdSp ∧ c.lookupSecondary 0x7C#8 = some dBit7H := by
  simp only [Catalog.wf, Bool.and_eq_true, decide_eq_true_eq] at h
  exact ⟨h.1.1.1.1.1.1, h.1.1.1.1.1.2, h.1.1.1.1.2, h.1.1.1.2, h.1.1.2, h.1.2, h.2⟩

theorem Catalog.primary_escape {c : Catalog} (h : c.wf = true) : c.lookupPrimary escapeByte = none :=
  (Catalog.wf_clauses h).2.2.1
theorem Catalog.primary_nop {c : Catalog} (h : c.wf = true) : c.lookupPrimary 0x00#8 = some dNop :=
  (Catalog.wf_clauses h).2.2.2.1
theorem Catalog.primary_ldBc {c : Catalog} (h : c.wf = true) : c.lookupPrimary 0x01#8 = some dLdBc :=
  (Catalog.wf_clauses h).2.2.2.2.1
theorem Catalog.primary_ldSp {c : Catalog} (h : c.wf = true) : c.lookupPrimary 0x31#8 = some dLdSp :=
  (Catalog.wf_clauses h).2.2.2.2.2.1
theorem Catalog.secondary_bit7H {c : Catalog} (h : c.wf = true) : c.lookupSecondary 0x7C#8 = some dBit7H :=
  (Catalog.wf_clauses h).2.2.2.2.2.2

/-- The extension of `REG16_SET` is the one tag `AF` (R102). -/
theorem Reg16.mem_baseline (p : Reg16) : p ∈ Reg16.baseline ↔ p ≠ .af := by cases p <;> decide

@[simp] theorem dNop_trailing : dNop.trailing = 0 := rfl
@[simp] theorem dLdBc_trailing : dLdBc.trailing = 2 := rfl
@[simp] theorem dLdSp_trailing : dLdSp.trailing = 2 := rfl
@[simp] theorem dBit7H_trailing : dBit7H.trailing = 0 := rfl

theorem decodePrimary_of_some {c : Catalog} {b : Byte} {d : Descriptor} (h : c.lookupPrimary b = some d) :
    decodePrimary c b = .ok d := by simp [decodePrimary, h]
theorem decodePrimary_of_none {c : Catalog} {b : Byte} (h : c.lookupPrimary b = none) :
    decodePrimary c b = .error ⟨b, false⟩ := by simp [decodePrimary, h]
theorem decodeSecondary_of_some {c : Catalog} {b : Byte} {d : Descriptor} (h : c.lookupSecondary b = some d) :
    decodeSecondary c b = .ok d := by simp [decodeSecondary, h]
theorem decodeSecondary_of_none {c : Catalog} {b : Byte} (h : c.lookupSecondary b = none) :
    decodeSecondary c b = .error ⟨b, true⟩ := by simp [decodeSecondary, h]

theorem Table.rising_length {t : Table} {lo : Nat} (hlo : lo ≤ Config.tableSize)
    (h : Table.risingFrom lo t = true) : lo + t.length ≤ Config.tableSize := by
  induction t generalizing lo with
  | nil => simpa using hlo
  | cons e t ih =>
    simp only [Table.risingFrom, Bool.and_eq_true, decide_eq_true_eq] at h
    have hk : e.1.toNat + 1 ≤ Config.tableSize := e.1.isLt
    have := ih hk h.2
    simp only [List.length_cons]
    omega

/-- A well-formed table has at most `TABLE_N` entries (R7, R9). -/
theorem Table.wf_length {t : Table} (h : Table.wf t = true) : t.length ≤ Config.tableSize := by
  simp only [Table.wf, Bool.and_eq_true] at h
  simpa using Table.rising_length (Nat.zero_le _) h.1

/-- `CAT_MIN` is well-formed (R135). -/
theorem catMin_wf : catMin.wf = true := by decide

end Sys2Proof.Machine
end

