-- ==== Sys2Proof/Laws/Memory.lean ====
section
/-! SUPPORT. Laws of the input buffer: what a read gives after a write, and that every operation keeps the canonical form. -/

namespace Sys2Proof.Machine

theorem Memory.canonicalFrom_mono {lo lo' : Nat} {m : Memory} (h : lo' ≤ lo)
    (hm : Memory.canonicalFrom lo m = true) : Memory.canonicalFrom lo' m = true := by
  cases m with
  | nil => rfl
  | cons c t =>
    simp only [Memory.canonicalFrom, Bool.and_eq_true, decide_eq_true_eq] at hm ⊢
    exact ⟨⟨by omega, hm.1.2⟩, hm.2⟩

/-- Below the first cell nothing is listed. -/
theorem Memory.read_below {lo a : Nat} {m : Memory} (hm : Memory.canonicalFrom lo m = true)
    (ha : a < lo) : m.read a = Memory.unlisted := by
  induction m generalizing lo with
  | nil => rfl
  | cons c t ih =>
    simp only [Memory.canonicalFrom, Bool.and_eq_true, decide_eq_true_eq] at hm
    have hne : c.1 ≠ a := by omega
    simp only [Memory.read, hne, if_false]
    exact ih hm.2 (by omega)

theorem Memory.canonicalFrom_write {lo a : Nat} {m : Memory} (v : Byte)
    (hm : Memory.canonicalFrom lo m = true) (ha : lo ≤ a) :
    Memory.canonicalFrom lo (m.write a v) = true := by
  induction m generalizing lo with
  | nil =>
    by_cases hv : v = Memory.unlisted <;> simp [Memory.write, Memory.canonicalFrom, hv, ha]
  | cons c t ih =>
    simp only [Memory.canonicalFrom, Bool.and_eq_true, decide_eq_true_eq] at hm
    simp only [Memory.write]
    split_ifs with h1 h2 h3 h4
    · simp only [Memory.canonicalFrom, Bool.and_eq_true, decide_eq_true_eq]; exact hm
    · simp only [Memory.canonicalFrom, Bool.and_eq_true, decide_eq_true_eq]
      exact ⟨⟨ha, h2⟩, ⟨by omega, hm.1.2⟩, hm.2⟩
    · exact Memory.canonicalFrom_mono (by omega) hm.2
    · simp only [Memory.canonicalFrom, Bool.and_eq_true, decide_eq_true_eq]
      exact ⟨⟨ha, h4⟩, h3 ▸ hm.2⟩
    · simp only [Memory.canonicalFrom, Bool.and_eq_true, decide_eq_true_eq]
      exact ⟨hm.1, ih hm.2 (by omega)⟩

/-- A write keeps the canonical form. -/
theorem Memory.wf_write {a : Nat} {m : Memory} (v : Byte) (hm : m.wf = true) : (m.write a v).wf = true :=
  Memory.canonicalFrom_write v hm (Nat.zero_le a)

/-- Loading a list of bytes keeps the canonical form. -/
theorem Memory.wf_load {a : Nat} {m : Memory} (bs : List Byte) (hm : m.wf = true) : (m.load a bs).wf = true := by
  induction bs generalizing a m with
  | nil => exact hm
  | cons v vs ih => exact ih (Memory.wf_write v hm)

theorem Memory.wf_ofBytes (bs : List Byte) : (Memory.ofBytes bs).wf = true := Memory.wf_load bs rfl

theorem Memory.read_write_from {lo a b : Nat} {m : Memory} (v : Byte)
    (hm : Memory.canonicalFrom lo m = true) :
    (m.write a v).read b = if b = a then v else m.read b := by
  induction m generalizing lo with
  | nil =>
    by_cases hv : v = Memory.unlisted <;> by_cases hb : b = a <;>
      simp [Memory.write, Memory.read, hv, hb, eq_comm]
    intro h; exact absurd h.symm hb
  | cons c t ih =>
    simp only [Memory.canonicalFrom, Bool.and_eq_true, decide_eq_true_eq] at hm
    rcases Nat.lt_trichotomy a c.1 with h1 | h1 | h1
    · by_cases hv : v = Memory.unlisted <;> by_cases hb : b = a
      · have hne : c.1 ≠ a := by omega
        simp only [Memory.write, h1, hv, hb, if_true, Memory.read, hne, if_false]
        exact Memory.read_below hm.2 (by omega)
      · simp [Memory.write, h1, hv, hb]
      · simp [Memory.write, h1, hv, hb, Memory.read]
      · have hne : a ≠ b := fun h => hb h.symm
        simp [Memory.write, h1, hv, hb, Memory.read, hne]
    · by_cases hv : v = Memory.unlisted <;> by_cases hb : b = a
      · simp only [Memory.write, h1, hv, hb, if_true, if_false, lt_irrefl]
        exact Memory.read_below hm.2 (by omega)
      · have hne : c.1 ≠ b := fun h => hb (h1.trans h).symm
        simp [Memory.write, h1, hv, hne.symm, Memory.read, hne]
      · simp [Memory.write, h1, hv, hb, Memory.read]
      · have hne : c.1 ≠ b := fun h => hb (h1.trans h).symm
        simp [Memory.write, h1, hv, hne.symm, Memory.read, hne]
    · have h2 : ¬ a < c.1 := by omega
      have h3 : a ≠ c.1 := by omega
      simp only [Memory.write, h2, h3, if_false, Memory.read]
      split_ifs with hk hb hb
      · omega
      · rfl
      · rw [ih hm.2, if_pos hb]
      · rw [ih hm.2, if_neg hb]

/-- A read after a write gives the byte written at its own offset and leaves every other offset alone. -/
theorem Memory.read_write {a b : Nat} {m : Memory} (v : Byte) (hm : m.wf = true) :
    (m.write a v).read b = if b = a then v else m.read b :=
  Memory.read_write_from v hm

theorem Memory.within_write {len a : Nat} {m : Memory} (v : Byte) (hm : Memory.within len m = true)
    (ha : a < len) : Memory.within len (m.write a v) = true := by
  induction m with
  | nil => by_cases hv : v = Memory.unlisted <;> simp [Memory.write, Memory.within, hv, ha]
  | cons c t ih =>
    have hc : c.1 < len := by simpa [Memory.within] using (List.all_eq_true.mp hm) c (by simp)
    have ht : Memory.within len t = true := List.all_eq_true.mpr fun x hx =>
      List.all_eq_true.mp hm x (List.mem_cons_of_mem _ hx)
    have iht : t.all (fun c => decide (c.1 < len)) = true := ht
    have ihw : (Memory.write t a v).all (fun c => decide (c.1 < len)) = true := ih ht
    simp only [Memory.write]
    split_ifs <;> simp only [Memory.within, List.all_cons, hc, ha, decide_true, Bool.true_and, iht, ihw]

theorem Memory.within_load {len a : Nat} {m : Memory} (bs : List Byte) (hm : Memory.within len m = true)
    (ha : a + bs.length ≤ len) : Memory.within len (m.load a bs) = true := by
  induction bs generalizing a m with
  | nil => exact hm
  | cons v vs ih =>
    simp only [List.length_cons] at ha
    exact ih (Memory.within_write v hm (by omega)) (by omega)

theorem Memory.within_ofBytes (bs : List Byte) : Memory.within bs.length (Memory.ofBytes bs) = true :=
  Memory.within_load bs rfl (by simp)

/-- What a read gives after a list of bytes was loaded at `a`. -/
theorem Memory.read_load {a b : Nat} {m : Memory} (bs : List Byte) (hm : m.wf = true) :
    (m.load a bs).read b = if h : a ≤ b ∧ b < a + bs.length then bs[b - a]'(by omega) else m.read b := by
  induction bs generalizing a m with
  | nil =>
    have : ¬ (a ≤ b ∧ b < a + ([] : List Byte).length) := by simp
    simp only [this, dif_neg, not_false_eq_true]; rfl
  | cons v vs ih =>
    simp only [Memory.load, ih (Memory.wf_write v hm), Memory.read_write v hm, List.length_cons]
    by_cases h1 : a + 1 ≤ b ∧ b < a + 1 + vs.length
    · have h2 : a ≤ b ∧ b < a + (vs.length + 1) := by omega
      obtain ⟨k, hk⟩ : ∃ k, b - a = k + 1 := ⟨b - a - 1, by omega⟩
      have hk' : b - (a + 1) = k := by omega
      simp only [h1, h2, hk, hk', dif_pos, and_self, List.getElem_cons_succ]
    · by_cases hb : b = a
      · subst hb
        have h3 : ¬ (b + 1 ≤ b) := by omega
        simp [h3]
      · have h2 : ¬ (a ≤ b ∧ b < a + (vs.length + 1)) := by omega
        simp only [h1, h2, hb, dif_neg, not_false_eq_true, if_false]

theorem Memory.read_ofBytes (bs : List Byte) (k : Nat) : (Memory.ofBytes bs).read k = bs[k]?.getD Memory.unlisted := by
  rw [Memory.ofBytes, Memory.read_load bs rfl]
  by_cases h : k < bs.length
  · simp [h]
  · simp [h, Memory.read]

@[simp] theorem Memory.length_slice (m : Memory) (a n : Nat) : (m.slice a n).length = n := by
  induction n generalizing a with
  | zero => rfl
  | succ n ih => simp [Memory.slice, ih]

theorem Memory.getElem_slice (m : Memory) {a n k : Nat} (hk : k < (m.slice a n).length) :
    (m.slice a n)[k] = m.read (a + k) := by
  induction n generalizing a k with
  | zero => simp [Memory.slice] at hk
  | succ n ih =>
    cases k with
    | zero => rfl
    | succ k =>
      simp only [Memory.slice, List.getElem_cons_succ]
      rw [ih]; congr 1; omega

theorem Memory.slice_congr {m m' : Memory} {a n : Nat} (h : ∀ k, a ≤ k → k < a + n → m.read k = m'.read k) :
    m.slice a n = m'.slice a n := by
  apply List.ext_getElem (by simp)
  intro k hk hk'
  rw [Memory.getElem_slice, Memory.getElem_slice]
  simp only [Memory.length_slice] at hk
  exact h _ (by omega) (by omega)

theorem Memory.slice_append (m : Memory) (a n k : Nat) :
    m.slice a (n + k) = m.slice a n ++ m.slice (a + n) k := by
  induction n generalizing a with
  | zero => simp [Memory.slice]
  | succ n ih =>
    have h1 : n + 1 + k = (n + k) + 1 := by omega
    have h2 : a + (n + 1) = a + 1 + n := by omega
    simp only [h1, h2, Memory.slice, ih, List.cons_append]

/-- The buffer made from a list of bytes reads as that list. -/
theorem Memory.slice_ofBytes (bs : List Byte) (a : Nat) :
    (Memory.ofBytes bs).slice a (bs.length - a) = bs.drop a := by
  apply List.ext_getElem (by simp)
  intro k hk hk'
  rw [Memory.getElem_slice, Memory.read_ofBytes, List.getElem_drop]
  simp only [Memory.length_slice] at hk
  simp [show a + k < bs.length by omega]

theorem Memory.eq_of_read_from {lo : Nat} {m m' : Memory} (hm : Memory.canonicalFrom lo m = true)
    (hm' : Memory.canonicalFrom lo m' = true) (h : ∀ a, m.read a = m'.read a) : m = m' := by
  induction m generalizing lo m' with
  | nil =>
    cases m' with
    | nil => rfl
    | cons c t =>
      simp only [Memory.canonicalFrom, Bool.and_eq_true, decide_eq_true_eq] at hm'
      exact absurd (by simpa [Memory.read] using (h c.1).symm) hm'.1.2
  | cons c t ih =>
    simp only [Memory.canonicalFrom, Bool.and_eq_true, decide_eq_true_eq] at hm
    cases m' with
    | nil => exact absurd (by simpa [Memory.read] using h c.1) hm.1.2
    | cons c' t' =>
      simp only [Memory.canonicalFrom, Bool.and_eq_true, decide_eq_true_eq] at hm'
      have hkey : c.1 = c'.1 := by
        rcases Nat.lt_trichotomy c.1 c'.1 with hlt | heq | hgt
        · have h1 := h c.1
          have hne : c'.1 ≠ c.1 := by omega
          simp only [Memory.read, if_true, hne, if_false] at h1
          exact absurd (h1.trans (Memory.read_below hm'.2 (by omega))) hm.1.2
        · exact heq
        · have h1 := h c'.1
          have hne : c.1 ≠ c'.1 := by omega
          simp only [Memory.read, if_true, hne, if_false] at h1
          exact absurd (h1.symm.trans (Memory.read_below hm.2 (by omega))) hm'.1.2
      have hval : c.2 = c'.2 := by simpa [Memory.read, hkey] using h c.1
      have htail : t = t' := by
        refine ih hm.2 (hkey ▸ hm'.2) fun a => ?_
        by_cases ha : a < c.1 + 1
        · rw [Memory.read_below hm.2 ha, Memory.read_below hm'.2 (by omega)]
        · have h1 : c.1 ≠ a := by omega
          have h2 : c'.1 ≠ a := by omega
          simpa [Memory.read, h1, h2] using h a
      rw [htail, Prod.ext hkey hval]

/-- Equal buffers are equal data. -/
theorem Memory.eq_of_read {m m' : Memory} (hm : m.wf = true) (hm' : m'.wf = true)
    (h : ∀ a, m.read a = m'.read a) : m = m' :=
  Memory.eq_of_read_from hm hm' h

theorem Memory.read_past {len a : Nat} {m : Memory} (hm : Memory.within len m = true) (ha : len ≤ a) :
    m.read a = Memory.unlisted := by
  induction m with
  | nil => rfl
  | cons c t ih =>
    have hc : c.1 < len := by simpa [Memory.within] using (List.all_eq_true.mp hm) c (by simp)
    have hne : c.1 ≠ a := by omega
    simp only [Memory.read, hne, if_false]
    exact ih (List.all_eq_true.mpr fun x hx => List.all_eq_true.mp hm x (List.mem_cons_of_mem _ hx))

/-- Every canonical buffer within `len` is the buffer of a byte list of that length: the form leaves no byte sequence out and adds none (log entry 2). -/
theorem Memory.eq_ofBytes {len : Nat} {m : Memory} (hm : m.wf = true) (hw : Memory.within len m = true) :
    m = Memory.ofBytes (m.slice 0 len) := by
  refine Memory.eq_of_read hm (Memory.wf_ofBytes _) fun a => ?_
  rw [Memory.read_ofBytes]
  by_cases ha : a < len
  · rw [List.getElem?_eq_getElem (by simpa using ha), Memory.getElem_slice]; simp
  · rw [List.getElem?_eq_none (by simpa using Nat.le_of_not_lt ha)]
    exact Memory.read_past hw (Nat.le_of_not_lt ha)

end Sys2Proof.Machine
end

