-- ==== Sys2Proof/Laws/State.lean ====
section
/-! SUPPORT. One lemma for each field of State under each named update. -/

namespace Sys2Proof.Machine

variable (s : State) (es : List Entry) (cur : Nat) (e : DecodeError)

@[simp] theorem State.emit_input : (s.emit es cur).input = s.input := rfl
@[simp] theorem State.emit_len : (s.emit es cur).len = s.len := rfl
@[simp] theorem State.emit_cat : (s.emit es cur).cat = s.cat := rfl
@[simp] theorem State.emit_cur : (s.emit es cur).cur = cur := rfl
@[simp] theorem State.emit_out : (s.emit es cur).out = s.out ++ es := rfl
@[simp] theorem State.emit_outcome : (s.emit es cur).outcome = s.outcome := rfl
@[simp] theorem State.emit_err : (s.emit es cur).err = s.err := rfl

@[simp] theorem State.raise_input : (s.raise e cur).input = s.input := rfl
@[simp] theorem State.raise_len : (s.raise e cur).len = s.len := rfl
@[simp] theorem State.raise_cat : (s.raise e cur).cat = s.cat := rfl
@[simp] theorem State.raise_cur : (s.raise e cur).cur = cur := rfl
@[simp] theorem State.raise_out : (s.raise e cur).out = s.out := rfl
@[simp] theorem State.raise_outcome : (s.raise e cur).outcome = .fail := rfl
@[simp] theorem State.raise_err : (s.raise e cur).err = some e := rfl

@[simp] theorem State.finish_input : s.finish.input = s.input := rfl
@[simp] theorem State.finish_len : s.finish.len = s.len := rfl
@[simp] theorem State.finish_cat : s.finish.cat = s.cat := rfl
@[simp] theorem State.finish_cur : s.finish.cur = s.cur := rfl
@[simp] theorem State.finish_out : s.finish.out = s.out := rfl
@[simp] theorem State.finish_outcome : s.finish.outcome = .done := rfl
@[simp] theorem State.finish_err : s.finish.err = s.err := rfl

variable (image : List Byte) (cat : Catalog)

@[simp] theorem State.start_input : (State.start image cat).input = Memory.ofBytes image := rfl
@[simp] theorem State.start_len : (State.start image cat).len = image.length := rfl
@[simp] theorem State.start_cat : (State.start image cat).cat = cat := rfl
@[simp] theorem State.start_cur : (State.start image cat).cur = 0 := rfl
@[simp] theorem State.start_out : (State.start image cat).out = [] := rfl
@[simp] theorem State.start_outcome : (State.start image cat).outcome = .run := rfl
@[simp] theorem State.start_err : (State.start image cat).err = none := rfl

/-- After reset no entry is held and nothing is consumed (R36). -/
theorem State.reset_counts : entryCount State.reset.out = 0 ∧ consumedBytes State.reset.out = 0 := ⟨rfl, rfl⟩

end Sys2Proof.Machine
end

