-- ==== Sys2Proof/Laws/Ops.lean ====
section
/-! SUPPORT. What each shared operation can do, said once. -/

namespace Sys2Proof.Machine

/-- Enabled (R160): the guard lets its body through. -/
theorem whenEnabled_ready {s : State} {k : StepOutcome} (hr : s.outcome = .run) (hw : s.cat.wf = true) :
    whenEnabled s k = k := by simp [whenEnabled, hr, hw]

/-- A guarded body that answers next was enabled. -/
theorem whenEnabled_next {s t : State} {k : StepOutcome} (h : whenEnabled s k = .next t) :
    s.outcome = .run ∧ s.cat.wf = true ∧ k = .next t := by
  unfold whenEnabled at h
  split at h
  · split_ifs at h with hw
    exact ⟨‹_›, hw, h⟩
  · cases h
  · cases h

theorem whenEnabled_ended {s : State} {k : StepOutcome} (h : s.outcome ≠ .run) :
    whenEnabled s k = .fault .passEnded := by
  unfold whenEnabled
  split
  · exact absurd ‹_› h
  · rfl
  · rfl

theorem whenEnabled_illFormed {s : State} {k : StepOutcome} (hr : s.outcome = .run) (hw : s.cat.wf = false) :
    whenEnabled s k = .refused .illFormedCatalog := by simp [whenEnabled, hr, hw]

@[simp] theorem State.length_bytesFrom (s : State) (a : Nat) : (s.bytesFrom a).length = s.len - a := by
  simp [State.bytesFrom]

theorem State.bytesFrom_of_le {s : State} {a : Nat} (h : s.len ≤ a) : s.bytesFrom a = [] := by
  have : s.len - a = 0 := by omega
  simp [State.bytesFrom, this, Memory.slice]

theorem State.bytesFrom_of_lt {s : State} {a : Nat} (h : a < s.len) :
    s.bytesFrom a = s.input.read a :: s.bytesFrom (a + 1) := by
  obtain ⟨n, hn⟩ : ∃ n, s.len - a = n + 1 := ⟨s.len - a - 1, by omega⟩
  have hn' : s.len - (a + 1) = n := by omega
  simp [State.bytesFrom, hn, hn', Memory.slice]

theorem State.byteAt_of_lt {s : State} {a : Nat} (h : a < s.len) : s.byteAt a = some (s.input.read a) := by
  simp [State.byteAt, h]

theorem State.byteAt_of_le {s : State} {a : Nat} (h : s.len ≤ a) : s.byteAt a = none := by
  simp [State.byteAt, Nat.not_lt.mpr h]

theorem State.take_bytesFrom {s : State} {a n : Nat} (h : n ≤ s.len - a) :
    (s.bytesFrom a).take n = s.input.slice a n := by
  obtain ⟨k, hk⟩ : ∃ k, s.len - a = n + k := ⟨s.len - a - n, by omega⟩
  rw [State.bytesFrom, hk, Memory.slice_append]
  simp

/-- Only the first `n` of the literals given are used. -/
theorem instructionEntries_congr {d : Descriptor} {xs ys : List Byte}
    (h : xs.take d.trailing = ys.take d.trailing) : instructionEntries d xs = instructionEntries d ys := by
  simp [instructionEntries, h]

theorem length_instructionEntries {d : Descriptor} {lits : List Byte} (h : d.trailing ≤ lits.length) :
    (instructionEntries d lits).length = d.trailing + 1 := by
  simp [instructionEntries, h]

/-- Everything the plain path can do (R163). -/
theorem plainPath_cases (b : Byte) (lits : List Byte) (s : State) :
    (s.cat.lookupPrimary b = none ∧ plainPath b lits s = s.raise (.unimplementedOpcode b false s.cur) s.cur) ∨
    (∃ d, s.cat.lookupPrimary b = some d ∧ s.len - (s.cur + 1) < d.trailing ∧
      plainPath b lits s = s.raise (.truncatedOperand s.cur d.trailing (s.len - (s.cur + 1))) s.cur) ∨
    (∃ d, s.cat.lookupPrimary b = some d ∧ d.trailing ≤ s.len - (s.cur + 1) ∧
      plainPath b lits s = s.emit (instructionEntries d lits) (s.cur + 1 + d.trailing)) := by
  rcases h : s.cat.lookupPrimary b with _ | d
  · exact .inl ⟨rfl, by simp [plainPath, decodePrimary_of_none h, LookupMiss.at]⟩
  · by_cases hn : d.trailing > s.len - (s.cur + 1)
    · exact .inr (.inl ⟨d, rfl, hn, by simp [plainPath, decodePrimary_of_some h, hn]⟩)
    · exact .inr (.inr ⟨d, rfl, by omega, by simp [plainPath, decodePrimary_of_some h, hn]⟩)

/-- Everything the prefixed path can do (R164). -/
theorem prefixedPath_cases (c : Byte) (lits : List Byte) (s : State) :
    (s.len ≤ s.cur + 1 ∧ prefixedPath c lits s = s.raise (.truncatedEscape s.cur) s.cur) ∨
    (s.cur + 1 < s.len ∧ s.cat.lookupSecondary c = none ∧
      prefixedPath c lits s = (s.emit [.escape escapeByte] (s.cur + 1)).raise
        (.unimplementedOpcode c true (s.cur + 1)) (s.cur + 1)) ∨
    (∃ d, s.cur + 1 < s.len ∧ s.cat.lookupSecondary c = some d ∧ s.len - (s.cur + 2) < d.trailing ∧
      prefixedPath c lits s = (s.emit [.escape escapeByte] (s.cur + 1)).raise
        (.truncatedOperand (s.cur + 1) d.trailing (s.len - (s.cur + 2))) (s.cur + 1)) ∨
    (∃ d, s.cur + 1 < s.len ∧ s.cat.lookupSecondary c = some d ∧ d.trailing ≤ s.len - (s.cur + 2) ∧
      prefixedPath c lits s =
        s.emit (.escape escapeByte :: instructionEntries d lits) (s.cur + 2 + d.trailing)) := by
  by_cases h1 : s.len ≤ s.cur + 1
  · exact .inl ⟨h1, by simp [prefixedPath, h1]⟩
  · have h1' : s.cur + 1 < s.len := by omega
    rcases h : s.cat.lookupSecondary c with _ | d
    · exact .inr (.inl ⟨h1', rfl, by simp [prefixedPath, h1, decodeSecondary_of_none h, LookupMiss.at]⟩)
    · by_cases hn : d.trailing > s.len - (s.cur + 2)
      · exact .inr (.inr (.inl ⟨d, h1', rfl, hn, by simp [prefixedPath, h1, decodeSecondary_of_some h, hn]⟩))
      · refine .inr (.inr (.inr ⟨d, h1', rfl, by omega, ?_⟩))
        simp [prefixedPath, h1, decodeSecondary_of_some h, hn, State.emit]

/-- The plain path depends on the literals only through those it appends. -/
theorem plainPath_congr {b : Byte} {xs ys : List Byte} {s : State}
    (h : ∀ d, s.cat.lookupPrimary b = some d → xs.take d.trailing = ys.take d.trailing) :
    plainPath b xs s = plainPath b ys s := by
  rcases hl : s.cat.lookupPrimary b with _ | d
  · simp [plainPath, decodePrimary_of_none hl]
  · simp [plainPath, decodePrimary_of_some hl, instructionEntries_congr (h d hl)]

theorem prefixedPath_congr {c : Byte} {xs ys : List Byte} {s : State}
    (h : ∀ d, s.cat.lookupSecondary c = some d → xs.take d.trailing = ys.take d.trailing) :
    prefixedPath c xs s = prefixedPath c ys s := by
  rcases hl : s.cat.lookupSecondary c with _ | d
  · simp [prefixedPath, decodeSecondary_of_none hl]
  · simp [prefixedPath, decodeSecondary_of_some hl, instructionEntries_congr (h d hl)]

end Sys2Proof.Machine
end

