-- ==== Sys2Proof/Laws/Step.lean ====
section
/-! SUPPORT. What a step is, one lemma for each branch, and its inversion. -/

namespace Sys2Proof.Machine

variable {s t : State}

theorem exec_nop (hr : s.outcome = .run) (hw : s.cat.wf = true) :
    exec .nop s = .next (plainPath 0x00#8 [] s) := whenEnabled_ready hr hw
theorem exec_ldBcD16 (a b : Byte) (hr : s.outcome = .run) (hw : s.cat.wf = true) :
    exec (.ldBcD16 a b) s = .next (plainPath 0x01#8 [a, b] s) := whenEnabled_ready hr hw
theorem exec_ldSpD16 (a b : Byte) (hr : s.outcome = .run) (hw : s.cat.wf = true) :
    exec (.ldSpD16 a b) s = .next (plainPath 0x31#8 [a, b] s) := whenEnabled_ready hr hw
theorem exec_prefixed (c : Byte) (hr : s.outcome = .run) (hw : s.cat.wf = true) :
    exec (.prefixed c) s = .next (prefixedPath c (s.bytesFrom (s.cur + 2)) s) := whenEnabled_ready hr hw
theorem exec_bit7H (hr : s.outcome = .run) (hw : s.cat.wf = true) :
    exec .bit7H s = .next (prefixedPath 0x7C#8 [] s) := whenEnabled_ready hr hw

/-- The end of the stream (R161). -/
theorem step_end (hr : s.outcome = .run) (hw : s.cat.wf = true) (h : s.len ≤ s.cur) :
    step s = .next s.finish := by
  simp [step, whenEnabled_ready hr hw, State.bytesFrom_of_le h]

/-- Where the bytes at CUR begin with an instruction of the table, its meaning runs. -/
theorem step_of_decode {b : Byte} {rest r : List Byte} {i : Instr} (hr : s.outcome = .run) (hw : s.cat.wf = true)
    (hb : s.bytesFrom s.cur = b :: rest) (hd : decode (b :: rest) = .ok (i, r)) : step s = exec i s := by
  simp only [step, whenEnabled_ready hr hw, hb, hd]

/-- Where they do not, the byte at CUR decides. -/
theorem step_of_reject {b : Byte} {rest : List Byte} {e : Reject} (hr : s.outcome = .run) (hw : s.cat.wf = true)
    (hb : s.bytesFrom s.cur = b :: rest) (hd : decode (b :: rest) = .error e) :
    step s = .next (offTablePath b s) := by
  simp only [step, whenEnabled_ready hr hw, hb, hd]

/-- The bytes after a load's opcode: two literals, or its refusal. -/
theorem decodeTwoLiterals_cases (op : Byte) (mk : Byte → Byte → Instr) (rest : List Byte) :
    (∃ a b r, rest = a :: b :: r ∧ decodeTwoLiterals op mk rest = .ok (mk a b, r)) ∨
    (rest.length < 2 ∧ decodeTwoLiterals op mk rest = .error (.cutShort op 2 rest.length)) := by
  rcases rest with _ | ⟨a, _ | ⟨b, r⟩⟩
  · exact .inr ⟨by simp, rfl⟩
  · exact .inr ⟨by simp, rfl⟩
  · exact .inl ⟨a, b, r, rfl, rfl⟩

/-- An opcode byte other than ESC takes the plain path, whether or not the opcode table has a row for it (R163). -/
theorem step_plain (hr : s.outcome = .run) (hw : s.cat.wf = true) (h : s.cur < s.len)
    (hb : s.input.read s.cur ≠ escapeByte) :
    step s = .next (plainPath (s.input.read s.cur) (s.bytesFrom (s.cur + 1)) s) := by
  have hbytes := State.bytesFrom_of_lt h
  have hoff : ∀ e, decode (s.input.read s.cur :: s.bytesFrom (s.cur + 1)) = .error e →
      step s = .next (plainPath (s.input.read s.cur) (s.bytesFrom (s.cur + 1)) s) := fun e hd => by
    rw [step_of_reject hr hw hbytes hd, offTablePath, if_neg hb]
  by_cases h0 : s.input.read s.cur = 0x00#8
  · have hd : decode (s.input.read s.cur :: s.bytesFrom (s.cur + 1)) = .ok (.nop, s.bytesFrom (s.cur + 1)) := by
      rw [h0]; rfl
    rw [step_of_decode hr hw hbytes hd, exec_nop hr hw, h0]
    refine congrArg _ (plainPath_congr fun d hl => ?_)
    rw [Catalog.primary_nop hw] at hl; cases hl; simp
  · by_cases h1 : s.input.read s.cur = 0x01#8
    · have hdec : decode (s.input.read s.cur :: s.bytesFrom (s.cur + 1)) =
          decodeTwoLiterals 0x01#8 .ldBcD16 (s.bytesFrom (s.cur + 1)) := by rw [h1]; rfl
      rcases decodeTwoLiterals_cases 0x01#8 .ldBcD16 (s.bytesFrom (s.cur + 1)) with ⟨a, b, r, hrest, hd⟩ | ⟨-, hd⟩
      · rw [step_of_decode hr hw hbytes (hdec.trans hd), exec_ldBcD16 a b hr hw, h1]
        refine congrArg _ (plainPath_congr fun d hl => ?_)
        rw [Catalog.primary_ldBc hw] at hl; cases hl; simp [hrest]
      · exact hoff _ (hdec.trans hd)
    · by_cases h2 : s.input.read s.cur = 0x31#8
      · have hdec : decode (s.input.read s.cur :: s.bytesFrom (s.cur + 1)) =
            decodeTwoLiterals 0x31#8 .ldSpD16 (s.bytesFrom (s.cur + 1)) := by rw [h2]; rfl
        rcases decodeTwoLiterals_cases 0x31#8 .ldSpD16 (s.bytesFrom (s.cur + 1)) with ⟨a, b, r, hrest, hd⟩ | ⟨-, hd⟩
        · rw [step_of_decode hr hw hbytes (hdec.trans hd), exec_ldSpD16 a b hr hw, h2]
          refine congrArg _ (plainPath_congr fun d hl => ?_)
          rw [Catalog.primary_ldSp hw] at hl; cases hl; simp [hrest]
        · exact hoff _ (hdec.trans hd)
      · exact hoff (.noRow (s.input.read s.cur)) (by simp [decode, hb, h0, h1, h2])

/-- The escape byte as the last byte of IN (R203). -/
theorem step_loneEscape (hr : s.outcome = .run) (hw : s.cat.wf = true) (h : s.cur < s.len)
    (hl : s.len ≤ s.cur + 1) (hb : s.input.read s.cur = escapeByte) :
    step s = .next (s.raise (.truncatedEscape s.cur) s.cur) := by
  simp [step, whenEnabled_ready hr hw, State.bytesFrom_of_lt h, State.bytesFrom_of_le hl, hb, decode,
    decodeSecondByte, offTablePath]

/-- The escape byte with a byte after it takes the prefixed path (R164). -/
theorem step_prefixed (hr : s.outcome = .run) (hw : s.cat.wf = true) (h : s.cur + 1 < s.len)
    (hb : s.input.read s.cur = escapeByte) :
    step s = .next (prefixedPath (s.input.read (s.cur + 1)) (s.bytesFrom (s.cur + 2)) s) := by
  have hlt : s.cur < s.len := by omega
  by_cases hc : s.input.read (s.cur + 1) = 0x7C#8
  · have : step s = exec .bit7H s := by
      simp [step, whenEnabled_ready hr hw, State.bytesFrom_of_lt hlt, State.bytesFrom_of_lt h, hb, decode,
        decodeSecondByte, hc]
    rw [this, exec_bit7H hr hw, hc]
    refine congrArg _ (prefixedPath_congr fun d hl => ?_)
    rw [Catalog.secondary_bit7H hw] at hl; cases hl; simp
  · have : step s = exec (.prefixed (s.input.read (s.cur + 1))) s := by
      simp [step, whenEnabled_ready hr hw, State.bytesFrom_of_lt hlt, State.bytesFrom_of_lt h, hb, decode,
        decodeSecondByte, hc]
    rw [this, exec_prefixed _ hr hw]

/-- Everything a step that answers next can be (R160 to R164). -/
theorem step_cases (h : step s = .next t) : s.outcome = .run ∧ s.cat.wf = true ∧
    ((s.len ≤ s.cur ∧ t = s.finish) ∨
     (s.cur < s.len ∧ s.input.read s.cur ≠ escapeByte ∧
        t = plainPath (s.input.read s.cur) (s.bytesFrom (s.cur + 1)) s) ∨
     (s.cur + 1 = s.len ∧ s.input.read s.cur = escapeByte ∧ t = s.raise (.truncatedEscape s.cur) s.cur) ∨
     (s.cur + 1 < s.len ∧ s.input.read s.cur = escapeByte ∧
        t = prefixedPath (s.input.read (s.cur + 1)) (s.bytesFrom (s.cur + 2)) s)) := by
  obtain ⟨hr, hw, -⟩ := whenEnabled_next h
  refine ⟨hr, hw, ?_⟩
  rcases Nat.lt_or_ge s.cur s.len with hlt | hge
  · by_cases hb : s.input.read s.cur = escapeByte
    · rcases Nat.lt_or_ge (s.cur + 1) s.len with hlt' | hge'
      · rw [step_prefixed hr hw hlt' hb] at h; cases h
        exact .inr (.inr (.inr ⟨hlt', hb, rfl⟩))
      · rw [step_loneEscape hr hw hlt hge' hb] at h; cases h
        exact .inr (.inr (.inl ⟨by omega, hb, rfl⟩))
    · rw [step_plain hr hw hlt hb] at h; cases h
      exact .inr (.inl ⟨hlt, hb, rfl⟩)
  · rw [step_end hr hw hge] at h; cases h
    exact .inl ⟨hge, rfl⟩

end Sys2Proof.Machine
end

