-- ==== Sys2Proof/Laws/Pass.lean ====
section
/-! SUPPORT. The induction over a pass, once, and what a pass does after its end. -/

namespace Sys2Proof.Machine

/-- What holds where a pass begins and is kept by every step holds after any number of steps. -/
theorem runPass_keeps {P : State → Prop} (hstep : ∀ s t, P s → step s = .next t → P t) (n : Nat) {s : State}
    (hs : P s) : P (runPass n s) := by
  induction n generalizing s with
  | zero => exact hs
  | succ n ih =>
    simp only [runPass]
    split
    · exact ih (hstep _ _ hs ‹_›)
    · exact hs
    · exact hs

/-- One step of a pass that goes on. -/
theorem runPass_step {s t : State} (n : Nat) (h : step s = .next t) : runPass (n + 1) s = runPass n t := by
  simp [runPass, h]

/-- After its end a pass stands still (R26). -/
theorem runPass_ended {s : State} (n : Nat) (h : s.outcome ≠ .run) : runPass n s = s := by
  cases n with
  | zero => rfl
  | succ n => simp [runPass, step, whenEnabled_ended h]

/-- The plain path leaves IN, LEN and the catalogs alone and only appends to OUT. -/
theorem plainPath_frame (b : Byte) (lits : List Byte) (s : State) :
    (plainPath b lits s).input = s.input ∧ (plainPath b lits s).len = s.len ∧
    (plainPath b lits s).cat = s.cat ∧ s.out <+: (plainPath b lits s).out := by
  rcases plainPath_cases b lits s with ⟨_, e⟩ | ⟨d, _, _, e⟩ | ⟨d, _, _, e⟩ <;> rw [e] <;> simp

/-- The prefixed path leaves IN, LEN and the catalogs alone and only appends to OUT. -/
theorem prefixedPath_frame (c : Byte) (lits : List Byte) (s : State) :
    (prefixedPath c lits s).input = s.input ∧ (prefixedPath c lits s).len = s.len ∧
    (prefixedPath c lits s).cat = s.cat ∧ s.out <+: (prefixedPath c lits s).out := by
  rcases prefixedPath_cases c lits s with ⟨_, e⟩ | ⟨_, _, e⟩ | ⟨d, _, _, _, e⟩ | ⟨d, _, _, _, e⟩ <;> rw [e] <;> simp

end Sys2Proof.Machine
end

