-- ==== Sys2Proof/Laws/PerInstr.lean ====
section
/-! SUPPORT. Statements made once per instruction (LAWS.json "per_instruction"). Layout: the bytes of a well-formed instruction in stream order (spec 30_encoding.md R70, R74): the first byte is ESC exactly for the format X rows, and the instruction is the whole head of the stream. -/

namespace Sys2Proof.Laws.Layout

/-- Bytes an instruction of the table occupies, escape byte included (R70, R123). -/
def size : Instr → Nat
  | .nop => 1
  | .ldBcD16 _ _ => 3
  | .ldSpD16 _ _ => 3
  | .prefixed _ => 2
  | .bit7H => 2

/-- Format X (R70). -/
def formatX : Instr → Bool
  | .nop => false
  | .ldBcD16 _ _ => false
  | .ldSpD16 _ _ => false
  | .prefixed _ => true
  | .bit7H => true

def Statement (i : Instr) : Prop :=
  i.wf = true → (encode i).length = size i ∧ ((encode i).head? = some Machine.escapeByte ↔ formatX i = true)

theorem nop : Statement .nop := fun _ => by decide
theorem ldBcD16 (a b : Byte) : Statement (.ldBcD16 a b) := fun _ => by
  simp [encode, size, formatX, Machine.escapeByte]
theorem ldSpD16 (a b : Byte) : Statement (.ldSpD16 a b) := fun _ => by
  simp [encode, size, formatX, Machine.escapeByte]
theorem prefixed (c : Byte) : Statement (.prefixed c) := fun _ => by simp [encode, size, formatX]
theorem bit7H : Statement .bit7H := fun _ => by decide

end Sys2Proof.Laws.Layout
end

