-- ==== Sys2Proof/Tests/Slice0.lean ====
section
/-! SUPPORT. The model's own tests. Expected values are the spec's test vectors (95_test_vectors.md, named in each comment) or its encoding tables; none is the model's own answer. -/

namespace Sys2Proof.Tests

open Sys2Proof.Machine

/-- The next state, if there is one. -/
def nextOf (o : StepOutcome) : Option State :=
  match o with
  | .next s => some s
  | .fault _ => none
  | .refused _ => none

/-- `CAT_X` of part W: CAT_MIN with a synthetic secondary entry at 0x00 that takes one literal. -/
def dX : Descriptor := ⟨.ext (.added 0) (.p1 .imm8), 2, 1⟩
def catX : Catalog := { catMin with secondary := [(0x00#8, dX), (0x7C#8, dBit7H)] }

/-- `CAT_2` of V-G1: CAT_MIN with a synthetic primary entry at 0x02. -/
def cat2 : Catalog :=
  { catMin with primary := [(0x00#8, dNop), (0x01#8, dLdBc), (0x02#8, dNop), (0x31#8, dLdSp)] }

/-! ### Well-formedness: the one check, and a term it refuses -/

theorem test_wf_refuses_bit7H_spelled_as_prefixed : (Instr.prefixed 0x7C#8).wf = false := by decide
theorem test_wf_accepts_double_escape : (Instr.prefixed 0xCB#8).wf = true := by decide

/-! ### Words written out from the `encoding` column of the opcode table -/

theorem test_decode_nop : decode [0b00000000#8, 0xFF#8] = .ok (.nop, [0xFF#8]) := by rfl
theorem test_decode_ldBc : decode [0b00000001#8, 0x34#8, 0x12#8] = .ok (.ldBcD16 0x34#8 0x12#8, []) := by rfl
theorem test_decode_ldSp : decode [0b00110001#8, 0xFE#8, 0xFF#8] = .ok (.ldSpD16 0xFE#8 0xFF#8, []) := by rfl
theorem test_decode_prefixed : decode [0b11001011#8, 0b00010001#8] = .ok (.prefixed 0x11#8, []) := by rfl
theorem test_decode_bit7H : decode [0b11001011#8, 0b01111100#8, 0x00#8] = .ok (.bit7H, [0x00#8]) := by rfl
/-- R74: a second 0xCB is a secondary opcode. -/
theorem test_decode_double_escape : decode [0xCB#8, 0xCB#8] = .ok (.prefixed 0xCB#8, []) := by rfl
theorem test_decode_short_load : decode [0x31#8, 0xFE#8] = .error (.cutShort 0x31#8 2 1) := by rfl
theorem test_decode_secondary_byte_alone : decode [0x7C#8] = .error (.noRow 0x7C#8) := by rfl

theorem test_tableWord_rows :
    decodeTableWord 8 0x00 = some .nop ∧ decodeTableWord 8 0x01 = some (.ldBcD16 0 0) ∧
    decodeTableWord 24 0xFFFE31 = some (.ldSpD16 0xFE#8 0xFF#8) ∧
    decodeTableWord 8 0xCB = some (.prefixed 0) ∧ decodeTableWord 16 0x7CCB = some .bit7H ∧
    decodeTableWord 8 0x7C = some .bit7H ∧ decodeTableWord 8 0x02 = none := by decide
theorem test_withFetchWord_runs :
    (nextOf (step (State.reset.withFetchWord 8 0x7C))).map (·.out) = some [.escape 0xCB#8, .instruction dBit7H] := by
  decide

/-! ### Lookups and decode functions: V-L4, V-L5, V-L8, V-D3, V-D6 -/

theorem test_lookup_spaces_disjoint :
    catMin.lookupPrimary 0xCB#8 = none ∧ catMin.lookupPrimary 0x7C#8 = none ∧
    catMin.lookupSecondary 0x00#8 = none := by decide
theorem test_decode_functions_miss :
    decodePrimary catMin 0xCB#8 = .error ⟨0xCB#8, false⟩ ∧
    decodeSecondary catMin 0x31#8 = .error ⟨0x31#8, true⟩ := ⟨rfl, rfl⟩
/-- R107: the entries of CAT_MIN announce as many literal bytes as they take. -/
theorem test_catMin_consistent :
    dNop.consistent = true ∧ dLdBc.consistent = true ∧ dLdSp.consistent = true ∧ dBit7H.consistent = true := by decide
theorem test_catalogs_wf : catX.wf = true ∧ cat2.wf = true := by decide
/-- R127 (b) and (a): an entry at ESC, an entry of length 0. -/
theorem test_catalogs_illFormed :
    ({ catMin with primary := catMin.primary ++ [(0xCB#8, dNop)] } : Catalog).wf = false ∧
    ({ catMin with secondary := catMin.secondary ++ [(0x7D#8, ⟨.nop, 0, 1⟩)] } : Catalog).wf = false := by decide
/-- R104: operands that differ only in the adjustment are different. -/
theorem test_adjustment_distinguishes :
    Mnemonic.ld (.operand (.ind .hl .decrement)) (.operand (.r8 .a)) ≠
      .ld (.operand (.ind .hl .increment)) (.operand (.r8 .a)) := by decide

/-! ### One step each -/

/-- S2. -/
theorem test_nop : (nextOf (step (.start [0x00#8] catMin))).map (fun t => (t.out, t.cur, t.outcome)) =
    some ([.instruction ⟨.nop, 1, 1⟩], 1, .run) := by decide
/-- V16, first step: literals that look like an opcode and an escape. -/
theorem test_ldBc : (nextOf (step (.start [0x01#8, 0x31#8, 0xCB#8, 0x00#8] catMin))).map (fun t => (t.out, t.cur)) =
    some ([.instruction dLdBc, .literal 0x31#8, .literal 0xCB#8], 3) := by decide
/-- S6. -/
theorem test_ldBc_cut : (nextOf (step (.start [0x01#8] catMin))).map (fun t => (t.out, t.cur, t.outcome, t.err)) =
    some ([], 0, .fail, some (.truncatedOperand 0 2 0)) := by decide
/-- S3. -/
theorem test_ldSp : (nextOf (step (.start [0x31#8, 0xFE#8, 0xFF#8] catMin))).map (fun t => (t.out, t.cur)) =
    some ([.instruction dLdSp, .literal 0xFE#8, .literal 0xFF#8], 3) := by decide
/-- V3. -/
theorem test_ldSp_cut : (nextOf (step (.start [0x31#8, 0xFE#8] catMin))).map (fun t => (t.out, t.cur, t.err)) =
    some ([], 0, some (.truncatedOperand 0 2 1)) := by decide
/-- S4. -/
theorem test_bit7H : (nextOf (step (.start [0xCB#8, 0x7C#8] catMin))).map (fun t => (t.out, t.cur)) =
    some ([.escape 0xCB#8, .instruction ⟨.bit 7 .h, 1, 2⟩], 2) := by decide
/-- V9. -/
theorem test_prefixed_miss : (nextOf (step (.start [0xCB#8, 0x7D#8] catMin))).map (fun t => (t.out, t.cur, t.err)) =
    some ([.escape 0xCB#8], 1, some (.unimplementedOpcode 0x7D#8 true 1)) := by decide
/-- W1. -/
theorem test_prefixed_literal : (nextOf (step (.start [0xCB#8, 0x00#8, 0x55#8] catX))).map (fun t => (t.out, t.cur)) =
    some ([.escape 0xCB#8, .instruction dX, .literal 0x55#8], 3) := by decide
/-- W2. -/
theorem test_prefixed_cut : (nextOf (step (.start [0xCB#8, 0x00#8] catX))).map (fun t => (t.out, t.cur, t.err)) =
    some ([.escape 0xCB#8], 1, some (.truncatedOperand 1 1 0)) := by decide
/-- V7. -/
theorem test_lone_escape : (nextOf (step (.start [0xCB#8] catMin))).map (fun t => (t.out, t.cur, t.err)) =
    some ([], 0, some (.truncatedEscape 0)) := by decide
/-- V12. -/
theorem test_plain_miss : (nextOf (step (.start [0x7C#8] catMin))).map (fun t => (t.out, t.cur, t.err)) =
    some ([], 0, some (.unimplementedOpcode 0x7C#8 false 0)) := by decide
/-- V-G1, the step at 0x02. -/
theorem test_extended_entry : (nextOf (step (.start [0x02#8] cat2))).map (fun t => (t.out, t.cur)) =
    some ([.instruction dNop], 1) := by decide
/-- CAT_MIN with a synthetic entry at 0xF5 whose operand is the pair AF. -/
def dAf : Descriptor := ⟨.ext (.added 1) (.p1 (.operand (.r16 .af))), 1, 4⟩
def catAf : Catalog := { catMin with primary := catMin.primary ++ [(0xF5#8, dAf)] }
/-- R102: a catalog that needs AF extends the pairs by that tag, "and nothing else in this spec changes". -/
theorem test_extended_pair : catAf.wf = true ∧ dAf.consistent = true ∧
    (nextOf (step (.start [0xF5#8] catAf))).map (fun t => (t.out, t.cur)) = some ([.instruction dAf], 1) := by decide
/-- V1. -/
theorem test_empty_buffer : (nextOf (step State.reset)).map (fun t => (t.cur, t.outcome, t.err)) =
    some (0, .done, none) := by decide
/-- R26: no step after the pass. -/
theorem test_ended_stops : step State.reset.finish = .fault .passEnded := rfl
/-- V-A4 to V-A7 on the result of S3. -/
theorem test_program_access : let out := [Entry.instruction dLdSp, .literal 0xFE#8, .literal 0xFF#8]
    entryAt out 2 = some (.literal 0xFF#8) ∧ entryAt out 3 = none ∧ offsetOf out 2 = some 2 ∧
    consumedBytes out = 3 ∧ (Entry.instruction dLdSp).width = 1 := by decide
/-- The canonical form: writing 0x00 takes the cell out. -/
theorem test_memory_canonical : Memory.ofBytes [0x00#8, 0x05#8] = [(1, 0x05#8)] ∧
    Memory.write [(1, 0x05#8)] 1 0x00#8 = [] := by decide

/-! ### Witnesses: for each statement with hypotheses, a state and operands that meet them together -/

/-- P1: all three encodings in one image. -/
def p1 : State := .start [0x31#8, 0xFE#8, 0xFF#8, 0xCB#8, 0x7C#8, 0x00#8] catMin
/-- A pass at the end of its image. -/
def atEnd : State := { State.start [0x00#8] catMin with cur := 1, out := [.instruction dNop] }
/-- W1 and W2. -/
def w1 : State := .start [0xCB#8, 0x00#8, 0x55#8] catX
def w2 : State := .start [0xCB#8, 0x00#8] catX
def lone : State := .start [0xCB#8] catMin
def short : State := .start [0x31#8, 0xFE#8] catMin
def offTable : State := .start [0x02#8] cat2
def miss : State := .start [0x02#8] catMin

theorem witness_DecodeReadsEncodedInstruction : (Instr.prefixed 0xFF#8).wf = true := by decide
theorem witness_DecodedBytesAreTheEncoding : decode [0xCB#8, 0xFF#8, 0x01#8] = .ok (.prefixed 0xFF#8, [0x01#8]) := rfl
theorem witness_LookupFindsTheEntryOfItsSpace : catX.wf = true := by decide
theorem witness_DecodeFunctionsFollowTheCatalog :
    catX.wf = true ∧ catX.lookupPrimary 0x31#8 = some dLdSp ∧ catX.lookupPrimary 0xFF#8 = none ∧
    catX.lookupSecondary 0x00#8 = some dX ∧ catX.lookupSecondary 0xFF#8 = none := by decide
theorem witness_CatalogEntriesHaveTheirInvariants : catX.wf = true ∧ catX.lookupSecondary 0x00#8 = some dX := by decide
theorem witness_NopEmitsItsEntry : atEnd.outcome = .run ∧ atEnd.cat.wf = true := by decide
theorem witness_LoadsEmitEntryAndLiterals :
    (State.start [0x31#8, 0xFE#8, 0xFF#8] catMin).outcome = .run ∧ catMin.wf = true ∧
    (State.start [0x31#8, 0xFE#8, 0xFF#8] catMin).cur + 3 = (State.start [0x31#8, 0xFE#8, 0xFF#8] catMin).len := by decide
theorem witness_BitTestEmitsEscapeAndEntry :
    (State.start [0xCB#8, 0x7C#8] catMin).outcome = .run ∧ catMin.wf = true ∧
    (State.start [0xCB#8, 0x7C#8] catMin).cur + 2 = (State.start [0xCB#8, 0x7C#8] catMin).len := by decide
theorem witness_PrefixEmitsSecondaryInstruction :
    w1.outcome = .run ∧ w1.cat.wf = true ∧ w1.cat.lookupSecondary 0x00#8 = some dX ∧
    w1.cur + 2 + (dX.totalLength - 1) = w1.len := by decide
theorem witness_LoadsCutShortRaise :
    short.outcome = .run ∧ short.cat.wf = true ∧ short.cur < short.len ∧ short.len + 1 = short.cur + 3 := by decide
theorem witness_SecondaryMissKeepsTheEscape :
    w2.outcome = .run ∧ w2.cat.wf = true ∧ w2.cur + 2 = w2.len ∧ w2.cat.lookupSecondary 0x11#8 = none := by decide
theorem witness_SecondaryOperandsCutShortRaise :
    w2.outcome = .run ∧ w2.cat.wf = true ∧ w2.cur + 2 = w2.len ∧ w2.cat.lookupSecondary 0x00#8 = some dX ∧
    w2.len < w2.cur + 2 + (dX.totalLength - 1) := by decide
theorem witness_LoneEscapeRaises :
    lone.outcome = .run ∧ lone.cat.wf = true ∧ lone.cur + 1 = lone.len ∧ lone.input.read lone.cur = 0xCB#8 ∧
    lone.err = none ∧ (nextOf (step lone)).map (·.err) = some (some (.truncatedEscape 0)) := by decide
theorem witness_StepRunsTheDecodedInstruction :
    p1.outcome = .run ∧ p1.cat.wf = true ∧
    decode (p1.bytesFrom p1.cur) = .ok (.ldSpD16 0xFE#8 0xFF#8, [0xCB#8, 0x7C#8, 0x00#8]) := ⟨rfl, rfl, rfl⟩
theorem witness_StepOffTheTable_end :
    atEnd.outcome = .run ∧ atEnd.cat.wf = true ∧ decode (atEnd.bytesFrom atEnd.cur) = .error .endOfStream := ⟨rfl, rfl, rfl⟩
theorem witness_StepOffTheTable_loneEscape :
    lone.outcome = .run ∧ lone.cat.wf = true ∧ decode (lone.bytesFrom lone.cur) = .error .loneEscape := ⟨rfl, rfl, rfl⟩
theorem witness_StepOffTheTable_cutShort :
    short.outcome = .run ∧ short.cat.wf = true ∧
    decode (short.bytesFrom short.cur) = .error (.cutShort 0x31#8 2 1) := ⟨rfl, rfl, rfl⟩
theorem witness_StepOffTheTable_miss :
    miss.outcome = .run ∧ miss.cat.wf = true ∧ decode (miss.bytesFrom miss.cur) = .error (.noRow 0x02#8) ∧
    miss.cat.lookupPrimary 0x02#8 = none := ⟨rfl, rfl, rfl, rfl⟩
theorem witness_StepOffTheTable_entry :
    offTable.outcome = .run ∧ offTable.cat.wf = true ∧
    decode (offTable.bytesFrom offTable.cur) = .error (.noRow 0x02#8) ∧
    offTable.cat.lookupPrimary 0x02#8 = some dNop ∧
    offTable.cur + 1 + (dNop.totalLength - 1) = offTable.len := ⟨rfl, rfl, rfl, rfl, rfl⟩
/-- CAT_MIN with a synthetic primary entry at 0x02 that takes one literal. -/
def cat3 : Catalog :=
  { catMin with primary := [(0x00#8, dNop), (0x01#8, dLdBc), (0x02#8, dX), (0x31#8, dLdSp)] }
theorem witness_StepOffTheTable_entryCut :
    (State.start [0x02#8] cat3).outcome = .run ∧ cat3.wf = true ∧
    decode ((State.start [0x02#8] cat3).bytesFrom 0) = .error (.noRow 0x02#8) ∧
    cat3.lookupPrimary 0x02#8 = some dX ∧
    (State.start [0x02#8] cat3).len < (State.start [0x02#8] cat3).cur + 1 + (dX.totalLength - 1) :=
  ⟨rfl, rfl, rfl, rfl, by decide⟩
theorem witness_StepIsTheSpecLoop : w1.outcome = .run ∧ w1.cat.wf = true := by decide
theorem witness_StepEnabledExactlyInRun : State.reset.finish.outcome ≠ .run ∧
    ({ State.reset with cat := ⟨[], []⟩ } : State).cat.wf = false := by decide
theorem witness_EndOfStreamEndsThePass :
    atEnd.outcome = .run ∧ atEnd.cat.wf = true ∧ atEnd.len ≤ atEnd.cur ∧
    p1.cur < p1.len ∧ (nextOf (step p1)).isSome = true := by decide
theorem witness_InstructionsLeaveTheRestUnchanged :
    (nextOf (step w1)).isSome = true ∧ (nextOf (exec (.ldBcD16 1 2) p1)).isSome = true := by decide
theorem witness_FirstErrorStopsThePass : (nextOf (step miss)).map (·.outcome) = some .fail := by decide
theorem witness_FailingInstructionLeavesNoEntryButItsEscape :
    (nextOf (step miss)).map (·.outcome) = some .fail ∧
    (nextOf (step w2)).map (fun t => (t.outcome, t.out)) = some (.fail, [.escape 0xCB#8]) := by decide
theorem witness_OnlyTheThreeCausesFail : (nextOf (step w2)).isSome = true ∧ (nextOf (step p1)).isSome = true := by decide
theorem witness_LengthsCountTheBytesOfTheirSpace :
    (nextOf (step p1)).map (·.outcome) = some .run ∧ p1.input.read p1.cur ≠ escapeByte ∧
    (nextOf (step w1)).map (·.outcome) = some .run ∧ w1.input.read w1.cur = escapeByte := by decide
theorem witness_NoReadPastTheInput : (∀ a, a < w1.len → (w1.input.write 9 0x77#8).read a = w1.input.read a) ∧
    w1.input.write 9 0x77#8 ≠ w1.input ∧ (nextOf (step w1)).isSome = true := by decide
/-- Raise the cycle cost of every descriptor but the four fixed ones. -/
def dearer (d : Descriptor) : Descriptor :=
  if d = dNop ∨ d = dLdBc ∨ d = dLdSp ∨ d = dBit7H then d else { d with cycleCost := d.cycleCost + 1 }
theorem witness_DescriptorContentIsOpaque :
    (∀ d, (dearer d).totalLength = d.totalLength ∧ (1 ≤ d.cycleCost → 1 ≤ (dearer d).cycleCost)) ∧
    dearer dNop = dNop ∧ dearer dLdBc = dLdBc ∧ dearer dLdSp = dLdSp ∧ dearer dBit7H = dBit7H ∧
    dearer dX ≠ dX ∧ (nextOf (step w1)).isSome = true := by
  refine ⟨fun d => ?_, by decide, by decide, by decide, by decide, by decide, by decide⟩
  unfold dearer
  split <;> simp
/-- BIT 7,H under CAT_MIN, all of whose secondary entries have length 1. -/
theorem witness_SecondaryTruncationUnreachable :
    (∀ c d, catMin.lookupSecondary c = some d → d.totalLength = 1) ∧
    (State.start [0xCB#8, 0x7C#8] catMin).err = none ∧
    (State.start [0xCB#8, 0x7C#8] catMin).input.read 0 = escapeByte ∧
    (nextOf (step (State.start [0xCB#8, 0x7C#8] catMin))).isSome = true := by
  refine ⟨fun c d h => ?_, by decide, by decide, by decide⟩
  have h' : Table.entry [(0x7C#8, dBit7H)] c = some d := h
  simp only [Table.entry] at h'
  split at h'
  · cases h'; rfl
  · cases h'
theorem witness_StepKeepsAccounting : Accounted w1 ∧ (nextOf (step w1)).isSome = true := ⟨⟨rfl, by decide⟩, by decide⟩
theorem witness_StepKeepsSafe : Safe w1 ∧ (nextOf (step w1)).isSome = true := by
  refine ⟨⟨⟨rfl, by decide⟩, rfl, (fun h => nomatch h), ⟨by decide, by decide⟩, ⟨?_, ?_, ?_⟩⟩, by decide⟩
  · intro k e h; cases h
  · intro k v e h; cases h
  · intro h; cases h
theorem witness_ErrorWrittenOnceByTheFailingStep :
    (nextOf (step w2)).map (fun t => decide (t.err ≠ w2.err)) = some true ∧
    (nextOf (step w2)).map (·.outcome) = some .fail ∧ (runPass 1 w1).outcome ≠ .fail := by decide
theorem witness_OutputIsAppendOnly : (nextOf (step w1)).isSome = true ∧ w1.outcome = .run := by decide
theorem witness_DecodingAdvancesWithinTheInput :
    (nextOf (step w1)).map (·.outcome) = some .run ∧ w1.input.read w1.cur = escapeByte := by decide
theorem witness_PassEndsWithinLengthPlusOneSteps : catX.wf = true := by decide
theorem witness_DonePassConsumesTheWholeImage :
    run [0xCB#8, 0x7C#8] catMin = some ⟨[.escape 0xCB#8, .instruction dBit7H], 2, .ok⟩ := by decide
theorem witness_FailedPassStopsAtTheErrorOffset :
    run [0x00#8, 0xCB#8] catMin = some ⟨[.instruction dNop], 1, .err (.truncatedEscape 1)⟩ := by decide
theorem witness_SecondPassGivesTheSameResult : cat2.wf = true := by decide
/-- V-C1: S3 then S6. -/
theorem witness_ConcatenatedImagesDecodeInTurn :
    run [0x31#8, 0xFE#8, 0xFF#8] catMin =
      some ⟨[.instruction dLdSp, .literal 0xFE#8, .literal 0xFF#8], [0x31#8, 0xFE#8, 0xFF#8].length, .ok⟩ ∧
    run [0x01#8] catMin = some ⟨[], 0, .err (.truncatedOperand 0 2 0)⟩ := by decide
/-- V-G1: a pass that met the missing 0x02, and one that met no missing entry. -/
theorem witness_CatalogGrowthChangesOnlyMisses :
    catMin.wf = true ∧ cat2.wf = true ∧ catMin.le cat2 ∧
    run [0x02#8] catMin = some ⟨[], 0, .err (.unimplementedOpcode 0x02#8 false 0)⟩ ∧
    run [0x01#8] catMin = some ⟨[], 0, .err (.truncatedOperand 0 2 0)⟩ := by
  refine ⟨by decide, by decide, ⟨?_, fun b d h => h⟩, by decide, by decide⟩
  have h : ∀ b : Byte, catMin.lookupPrimary b = none ∨ cat2.lookupPrimary b = catMin.lookupPrimary b := by decide
  intro b d hb
  rcases h b with hn | he
  · rw [hn] at hb; cases hb
  · rw [he]; exact hb
theorem witness_BytesPastAMissAreNotRead :
    run [0x00#8, 0x02#8] catMin = some ⟨[.instruction dNop], 1, .err (.unimplementedOpcode 0x02#8 false 1)⟩ ∧
    [0x00#8, 0x02#8, 0x31#8].take 2 = [0x00#8, 0x02#8].take 2 := by decide
theorem witness_EntriesStandForTheirBytes :
    run [0xCB#8, 0x00#8, 0x55#8] catX =
      some ⟨[.escape 0xCB#8, .instruction dX, .literal 0x55#8], 3, .ok⟩ := by decide
theorem witness_CompleteProgramRecutsToTheImage :
    run [0x00#8, 0xCB#8, 0x00#8, 0x55#8] catX =
      some ⟨[.instruction dNop, .escape 0xCB#8, .instruction dX, .literal 0x55#8], 4, .ok⟩ := by decide
/-- CAT_MIN with a synthetic secondary entry at the escape byte's own value, taking one literal (R74). -/
def catEsc : Catalog := { catMin with secondary := [(0x7C#8, dBit7H), (0xCB#8, dX)] }
/-- Both spaces over one catalog, with 0xCB as literal and as secondary opcode, before an image that is itself cut short. -/
theorem witness_LiteralsAreNeverDecoded :
    run [0xCB#8] catEsc = some ⟨[], 0, .err (.truncatedEscape 0)⟩ ∧
    catEsc.lookupPrimary 0x31#8 = some dLdSp ∧ [0xCB#8, 0x7C#8].length = dLdSp.totalLength - 1 ∧
    catEsc.lookupPrimary 0x00#8 = some dNop ∧ ([] : List Byte).length = dNop.totalLength - 1 ∧
    catEsc.lookupSecondary 0xCB#8 = some dX ∧ [0xCB#8].length = dX.totalLength - 1 := by decide
theorem witness_OffsetOfAnEntryIsItsIndex : (0 : Nat) < [Entry.escape 0xCB#8].length := by decide
theorem witness_HostMovesOnlyOutsideAPass :
    w1.outcome = .run ∧ State.reset.finish.outcome = .done ∧
    (lone.raise (.truncatedEscape 0) 0).outcome = .fail ∧
    (lone.raise (.truncatedEscape 0) 0).err = some (.truncatedEscape 0) := by decide

end Sys2Proof.Tests
end

/-! What a step does to OUT, CUR, OUTCOME and ERR, said once for both paths (spec 43_stream_assembler.md R161 to R165). -/

namespace Sys2Proof.Machine

/-- `t` is `s` with whole instructions' entries appended, CUR having moved over as many bytes of IN and at least one. -/
def Appends (s t : State) : Prop :=
  ∃ es : List Entry, es ≠ [] ∧ s.cur + es.length ≤ s.len ∧ t = s.emit es (s.cur + es.length)

/-- `t` is `s` with an error taken inside IN, at the offset where CUR stops after the entries `es`: none, or the accepted Escape (D6). -/
def Fails (s t : State) : Prop :=
  ∃ (es : List Entry) (e : DecodeError), (es = [] ∨ es = [.escape escapeByte]) ∧
    e.offset = s.cur + es.length ∧ s.cur + es.length < s.len ∧
    t = (s.emit es e.offset).raise e e.offset

variable {s t : State}

/-- An error taken at CUR before any append (R163, R203). -/
theorem fails_raise {e : DecodeError} (he : e.offset = s.cur) (h : s.cur < s.len) :
    Fails s (s.raise e s.cur) :=
  ⟨[], e, .inl rfl, he, h, by simp [he, State.emit, State.raise]⟩

/-- An error taken at the secondary opcode, after the Escape entry (R164, D6). -/
theorem fails_emit_escape_raise {e : DecodeError} (he : e.offset = s.cur + 1) (h : s.cur + 1 < s.len) :
    Fails s ((s.emit [.escape escapeByte] (s.cur + 1)).raise e (s.cur + 1)) :=
  ⟨[.escape escapeByte], e, .inr rfl, he, h, by rw [he]⟩

/-- With its literals there, the plain path appends one entry for each byte it consumes. -/
theorem plainPath_appends_or_fails (b : Byte) {lits : List Byte} (h : s.cur < s.len)
    (hl : lits.length = s.len - (s.cur + 1)) :
    Appends s (plainPath b lits s) ∨ Fails s (plainPath b lits s) := by
  rcases plainPath_cases b lits s with ⟨-, e⟩ | ⟨d, -, -, e⟩ | ⟨d, -, hn, e⟩ <;> rw [e]
  · exact .inr (fails_raise rfl h)
  · exact .inr (fails_raise rfl h)
  · have hlen : (instructionEntries d lits).length = d.trailing + 1 := length_instructionEntries (by omega)
    refine .inl ⟨instructionEntries d lits, List.cons_ne_nil _ _, by omega, ?_⟩
    rw [hlen, Nat.add_right_comm, Nat.add_assoc]

/-- With its literals there, the prefixed path appends one entry for each byte it consumes. -/
theorem prefixedPath_appends_or_fails (c : Byte) {lits : List Byte} (h : s.cur < s.len)
    (hl : lits.length = s.len - (s.cur + 2)) :
    Appends s (prefixedPath c lits s) ∨ Fails s (prefixedPath c lits s) := by
  rcases prefixedPath_cases c lits s with ⟨-, e⟩ | ⟨h', -, e⟩ | ⟨d, h', -, -, e⟩ | ⟨d, h', -, hn, e⟩ <;> rw [e]
  · exact .inr (fails_raise rfl h)
  · exact .inr (fails_emit_escape_raise rfl h')
  · exact .inr (fails_emit_escape_raise rfl h')
  · have hlen : (Entry.escape escapeByte :: instructionEntries d lits).length = d.trailing + 2 := by
      rw [List.length_cons, length_instructionEntries (by omega)]
    refine .inl ⟨.escape escapeByte :: instructionEntries d lits, List.cons_ne_nil _ _, by omega, ?_⟩
    rw [hlen, Nat.add_assoc, Nat.add_comm 2]

/-- A step that answers next ends the pass, appends, or fails (R161, R163 to R165). -/
theorem step_finishes_appends_or_fails (h : step s = .next t) :
    (s.len ≤ s.cur ∧ t = s.finish) ∨ Appends s t ∨ Fails s t := by
  obtain ⟨-, -, hend | ⟨hlt, -, rfl⟩ | ⟨hlast, -, rfl⟩ | ⟨hlt, -, rfl⟩⟩ := step_cases h
  · exact .inl hend
  · exact .inr (plainPath_appends_or_fails _ hlt (by simp))
  · exact .inr (.inr (fails_raise rfl (by omega)))
  · exact .inr (prefixedPath_appends_or_fails _ (by omega) (by simp))

/-- A step is taken in RUN only (R160). -/
theorem step_next_run (h : step s = .next t) : s.outcome = .run := (step_cases h).1

/-- A step leaves LEN alone (R22). -/
theorem step_len (h : step s = .next t) : t.len = s.len := by
  obtain ⟨-, rfl⟩ | ⟨es, -, -, rfl⟩ | ⟨es, e, -, -, -, rfl⟩ := step_finishes_appends_or_fails h <;> rfl

/-- A step leaves OUT's entries in place (R25). -/
theorem step_out_isPrefix (h : step s = .next t) : s.out <+: t.out := by
  obtain ⟨-, rfl⟩ | ⟨es, -, -, rfl⟩ | ⟨es, e, -, -, -, rfl⟩ := step_finishes_appends_or_fails h <;> simp

/-- A step keeps `CUR = |OUT|` and `CUR <= LEN` (R170, R171): entries and CUR grow by the same number. -/
theorem step_keeps_accounted (hs : Accounted s) (h : step s = .next t) : Accounted t := by
  obtain ⟨hcur, hle⟩ := hs
  obtain ⟨-, rfl⟩ | ⟨es, -, hes, rfl⟩ | ⟨es, e, -, he, hes, rfl⟩ := step_finishes_appends_or_fails h
  · exact ⟨hcur, hle⟩
  · exact ⟨by simp [hcur], hes⟩
  · exact ⟨by simp [he, hcur], by simp only [State.raise_cur, State.raise_len, State.emit_len]; omega⟩

/-- A step either fails with an error in ERR, or does not fail and leaves ERR alone (R27). -/
theorem step_fails_or_keeps_err (h : step s = .next t) :
    (t.outcome = .fail ∧ ∃ e, t.err = some e) ∨ (t.outcome ≠ .fail ∧ t.err = s.err) := by
  obtain ⟨-, rfl⟩ | ⟨es, -, -, rfl⟩ | ⟨es, e, -, -, -, rfl⟩ := step_finishes_appends_or_fails h
  · exact .inr ⟨by simp, rfl⟩
  · exact .inr ⟨by simp [step_next_run h], rfl⟩
  · exact .inl ⟨rfl, e, rfl⟩

end Sys2Proof.Machine

/-! The life of ERR and of OUT through a pass (spec 10_state.md R25, R27). -/

namespace Sys2Proof.Machine

/-- ERR is none outside FAIL (R27). -/
def ErrOnlyInFail (s : State) : Prop := s.outcome ≠ .fail → s.err = none

/-- A step keeps ERR none outside FAIL: it was taken in RUN, and only a failing step writes ERR. -/
theorem step_keeps_errOnlyInFail {s t : State} (hs : ErrOnlyInFail s) (h : step s = .next t) :
    ErrOnlyInFail t := by
  intro ht
  have hrun := step_next_run h
  obtain ⟨hfail, -⟩ | ⟨-, herr⟩ := step_fails_or_keeps_err h
  · exact absurd hfail ht
  · rw [herr]
    exact hs (by simp [hrun])

theorem runPass_errOnlyInFail (image : List Byte) (cat : Catalog) (k : Nat) :
    ErrOnlyInFail (runPass k (State.start image cat)) :=
  runPass_keeps (fun _ _ => step_keeps_errOnlyInFail) k fun _ => rfl

/-- In every state of a pass CUR counts OUT's entries and the bytes consumed, and LEN is the image's length (R22, R170, R171). -/
theorem runPass_accounted (image : List Byte) (cat : Catalog) (k : Nat) :
    Accounted (runPass k (State.start image cat)) ∧
    (runPass k (State.start image cat)).len = image.length :=
  runPass_keeps (P := fun s => Accounted s ∧ s.len = image.length)
    (fun _ _ ⟨hacc, hlen⟩ h => ⟨step_keeps_accounted hacc h, (step_len h).trans hlen⟩) k
    ⟨⟨rfl, Nat.zero_le _⟩, rfl⟩

/-- Settles O34: a step either fails and writes ERR or leaves ERR alone, and that ERR is none outside FAIL is kept along a pass. -/
theorem errorWrittenOnceByTheFailingStep : Obligations.ErrorWrittenOnceByTheFailingStep := by
  refine ⟨fun s t h hne => ?_, fun s t h ht => ?_, fun s t hs h => ?_, runPass_errOnlyInFail⟩
  · obtain ⟨hfail, -⟩ | ⟨-, herr⟩ := step_fails_or_keeps_err h
    · exact ⟨step_next_run h, hfail⟩
    · exact absurd herr hne
  · obtain ⟨-, herr⟩ | ⟨hfail, -⟩ := step_fails_or_keeps_err h
    · exact herr
    · exact absurd ht hfail
  · exact absurd (hs.symm.trans (step_next_run h)) (by decide)

/-- Settles O35: OUT grows at its end only, and its length is CUR, which stays within LEN. -/
theorem outputIsAppendOnly : Obligations.OutputIsAppendOnly := by
  refine ⟨fun s t h => ?_, fun image cat k => ?_, fun s hr => ?_⟩
  · obtain ⟨es, hes⟩ := step_out_isPrefix h
    exact ⟨es, hes.symm⟩
  · obtain ⟨⟨hcur, hle⟩, hlen⟩ := runPass_accounted image cat k
    rwa [← hcur, ← hlen]
  · simp [State.hostRead, hr]

end Sys2Proof.Machine

/-! What a table's canonical form says of its lookup (spec 41_opcode_catalog.md R120, R121). -/

namespace Sys2Proof.Machine

/-- No entry of a table that rises from `lo` on stands below `lo`. -/
theorem Table.le_of_mem_rising {t : Table} {lo : Nat} {b : Byte} {d : Descriptor}
    (ht : Table.risingFrom lo t = true) (hmem : (b, d) ∈ t) : lo ≤ b.toNat := by
  induction t generalizing lo with
  | nil => cases hmem
  | cons e t ih =>
    simp only [Table.risingFrom, Bool.and_eq_true, decide_eq_true_eq] at ht
    obtain ⟨hlo, hrest⟩ := ht
    cases hmem with
    | head => exact hlo
    | tail _ hmem =>
      have := ih hrest hmem
      omega

/-- In a rising table the first entry at a byte is the only one, so the lookup finds every entry. -/
theorem Table.entry_eq_some_iff_of_rising {t : Table} {lo : Nat} (ht : Table.risingFrom lo t = true)
    (b : Byte) (d : Descriptor) : Table.entry t b = some d ↔ (b, d) ∈ t := by
  induction t generalizing lo with
  | nil => simp [Table.entry]
  | cons e t ih =>
    obtain ⟨k, d'⟩ := e
    simp only [Table.risingFrom, Bool.and_eq_true, decide_eq_true_eq] at ht
    obtain ⟨-, hrest⟩ := ht
    by_cases hk : k = b
    · subst hk
      have hnot : (k, d) ∉ t := fun hmem => absurd (Table.le_of_mem_rising hrest hmem) (by omega)
      simp [Table.entry, hnot, eq_comm]
    · simp [Table.entry, hk, Ne.symm hk, ih hrest]

theorem Table.entry_eq_some_iff {t : Table} (ht : Table.wf t = true) (b : Byte) (d : Descriptor) :
    Table.entry t b = some d ↔ (b, d) ∈ t := by
  simp only [Table.wf, Bool.and_eq_true] at ht
  exact Table.entry_eq_some_iff_of_rising ht.1 b d

theorem Table.entry_eq_none_iff {t : Table} (ht : Table.wf t = true) (b : Byte) :
    Table.entry t b = none ↔ ∀ d, (b, d) ∉ t := by
  simp only [Option.eq_none_iff_forall_ne_some, ne_eq, Table.entry_eq_some_iff ht]

/-- Settles O7: each lookup reads its own table, and a well-formed table rises, so an entry is found exactly where it stands. -/
theorem lookupFindsTheEntryOfItsSpace : Obligations.LookupFindsTheEntryOfItsSpace := by
  refine ⟨fun c b d hw => ?_, fun c b hw => ?_, fun c c' b h => ?_, fun c c' b h => ?_,
    Catalog.primary_nop catMin_wf, Catalog.primary_escape catMin_wf,
    Catalog.secondary_bit7H catMin_wf, by decide⟩
  · obtain ⟨hp, hs, -⟩ := Catalog.wf_clauses hw
    exact ⟨Table.entry_eq_some_iff hp b d, Table.entry_eq_some_iff hs b d⟩
  · obtain ⟨hp, hs, -⟩ := Catalog.wf_clauses hw
    exact ⟨Table.entry_eq_none_iff hp b, Table.entry_eq_none_iff hs b⟩
  · simp only [Catalog.lookupPrimary, h]
  · simp only [Catalog.lookupSecondary, h]

end Sys2Proof.Machine

/-! `total_length` counts the bytes a step takes in the entry's own space (spec 41_opcode_catalog.md R123). -/

namespace Sys2Proof.Machine

variable {s t : State}

/-- The opcode byte and the trailing literals are the entry's length (R163), which R124 makes at least 1. -/
theorem Descriptor.trailing_add_one {d : Descriptor} (h : 1 ≤ d.totalLength) :
    d.trailing + 1 = d.totalLength := Nat.sub_add_cancel h

theorem Catalog.primary_trailing_add_one {c : Catalog} {b : Byte} {d : Descriptor} (hw : c.wf = true)
    (h : c.lookupPrimary b = some d) : d.trailing + 1 = d.totalLength :=
  Descriptor.trailing_add_one (Table.wf_entry (Catalog.wf_clauses hw).1 h).1

theorem Catalog.secondary_trailing_add_one {c : Catalog} {b : Byte} {d : Descriptor} (hw : c.wf = true)
    (h : c.lookupSecondary b = some d) : d.trailing + 1 = d.totalLength :=
  Descriptor.trailing_add_one (Table.wf_entry (Catalog.wf_clauses hw).2.1 h).1

/-- The plain path leaves the pass running only by decoding a primary entry whole (R163). -/
theorem plainPath_run {b : Byte} {lits : List Byte} (h : (plainPath b lits s).outcome = .run) :
    ∃ d, s.cat.lookupPrimary b = some d ∧ d.trailing ≤ s.len - (s.cur + 1) ∧
      plainPath b lits s = s.emit (instructionEntries d lits) (s.cur + 1 + d.trailing) := by
  obtain ⟨-, e⟩ | ⟨d, -, -, e⟩ | hdec := plainPath_cases b lits s
  · simp [e] at h
  · simp [e] at h
  · exact hdec

/-- The prefixed path leaves the pass running only by decoding a secondary entry whole (R164). -/
theorem prefixedPath_run {c : Byte} {lits : List Byte} (h : (prefixedPath c lits s).outcome = .run) :
    ∃ d, s.cat.lookupSecondary c = some d ∧ d.trailing ≤ s.len - (s.cur + 2) ∧
      prefixedPath c lits s =
        s.emit (.escape escapeByte :: instructionEntries d lits) (s.cur + 2 + d.trailing) := by
  obtain ⟨-, e⟩ | ⟨-, -, e⟩ | ⟨d, -, -, -, e⟩ | ⟨d, -, hdec⟩ := prefixedPath_cases c lits s
  · simp [e] at h
  · simp [e] at h
  · simp [e] at h
  · exact ⟨d, hdec⟩

/-- A step that leaves the pass running took one of the two paths (R161 to R164). -/
theorem step_run_cases (h : step s = .next t) (ht : t.outcome = .run) :
    (s.input.read s.cur ≠ escapeByte ∧
      t = plainPath (s.input.read s.cur) (s.bytesFrom (s.cur + 1)) s) ∨
    (s.input.read s.cur = escapeByte ∧
      t = prefixedPath (s.input.read (s.cur + 1)) (s.bytesFrom (s.cur + 2)) s) := by
  obtain ⟨-, -, ⟨-, rfl⟩ | ⟨-, hb, e⟩ | ⟨-, -, rfl⟩ | ⟨-, hb, e⟩⟩ := step_cases h
  · simp at ht
  · exact .inl ⟨hb, e⟩
  · simp at ht
  · exact .inr ⟨hb, e⟩

/-- A primary entry takes `total_length` bytes, one entry each (R123). -/
theorem step_plain_length (h : step s = .next t) (ht : t.outcome = .run)
    (hb : s.input.read s.cur ≠ escapeByte) :
    ∃ d, s.cat.lookupPrimary (s.input.read s.cur) = some d ∧
      t.cur = s.cur + d.totalLength ∧ t.out.length = s.out.length + d.totalLength := by
  obtain ⟨-, hw, -⟩ := step_cases h
  obtain ⟨-, rfl⟩ | ⟨hesc, -⟩ := step_run_cases h ht
  · obtain ⟨d, hd, hn, e⟩ := plainPath_run ht
    have hL := Catalog.primary_trailing_add_one hw hd
    refine ⟨d, hd, ?_, ?_⟩ <;> rw [e]
    · simp only [State.emit_cur]; omega
    · rw [State.emit_out, List.length_append, length_instructionEntries (by simpa using hn), hL]
  · exact absurd hesc hb

/-- A secondary entry takes `1 + total_length` bytes, the Escape counted apart (R123). -/
theorem step_prefixed_length (h : step s = .next t) (ht : t.outcome = .run)
    (hb : s.input.read s.cur = escapeByte) :
    ∃ d, s.cat.lookupSecondary (s.input.read (s.cur + 1)) = some d ∧
      t.cur = s.cur + (1 + d.totalLength) ∧ t.out.length = s.out.length + (1 + d.totalLength) := by
  obtain ⟨-, hw, -⟩ := step_cases h
  obtain ⟨hne, -⟩ | ⟨-, rfl⟩ := step_run_cases h ht
  · exact absurd hb hne
  · obtain ⟨d, hd, hn, e⟩ := prefixedPath_run ht
    have hL := Catalog.secondary_trailing_add_one hw hd
    refine ⟨d, hd, ?_, ?_⟩ <;> rw [e]
    · simp only [State.emit_cur]; omega
    · rw [State.emit_out, List.length_append, List.length_cons,
        length_instructionEntries (by simpa using hn), hL, Nat.add_comm 1]

/-- Settles O26: a step that stays in RUN decoded one whole entry, whose opcode byte and literals are its length. -/
theorem lengthsCountTheBytesOfTheirSpace : Obligations.LengthsCountTheBytesOfTheirSpace :=
  ⟨fun _ _ h ht => ⟨step_plain_length h ht, step_prefixed_length h ht⟩,
    fun _ hw => ⟨dBit7H, Catalog.secondary_bit7H hw, rfl, rfl, rfl⟩⟩

end Sys2Proof.Machine

/-! What the two decode functions answer (spec 42_instruction_decoder.md R150, R151). -/

namespace Sys2Proof.Machine

/-- `decode_primary` misses the escape byte in every well-formed catalog: clause (b) of R127 (R150). -/
theorem decodePrimary_escape {c : Catalog} (hw : c.wf = true) :
    decodePrimary c escapeByte = .error ⟨escapeByte, false⟩ :=
  decodePrimary_of_none (Catalog.primary_escape hw)

/-- Settles O5: each decode function turns its lookup's answer into the descriptor or the typed miss of its space, and CAT_MIN's lookups give the examples. -/
theorem decodeFunctionsFollowTheCatalog : Obligations.DecodeFunctionsFollowTheCatalog := by
  have hmissPrimary : catMin.lookupPrimary 0x02#8 = none := by decide
  have hmissSecondary : catMin.lookupSecondary 0x7D#8 = none := by decide
  exact ⟨fun _ _ _ => decodePrimary_of_some, fun _ _ => decodePrimary_of_none,
    fun _ _ _ => decodeSecondary_of_some, fun _ _ => decodeSecondary_of_none,
    fun _ => decodePrimary_escape,
    decodePrimary_of_some (Catalog.primary_ldSp catMin_wf), decodePrimary_of_none hmissPrimary,
    decodeSecondary_of_some (Catalog.secondary_bit7H catMin_wf), decodeSecondary_of_none hmissSecondary⟩

end Sys2Proof.Machine

/-! How a pass ends: at the end of the stream (spec 43_stream_assembler.md R161) or at its first error (R165). -/

namespace Sys2Proof.Machine

variable {s t : State}

/-- Once the pass has ended no next state follows (R26). -/
theorem step_ne_next_of_ended (h : s.outcome ≠ .run) (u : State) : step s ≠ .next u :=
  fun hstep => h (step_next_run hstep)

/-- A step leaves IN alone (R21). -/
theorem step_input (h : step s = .next t) : t.input = s.input := by
  obtain ⟨-, rfl⟩ | ⟨es, -, -, rfl⟩ | ⟨es, e, -, -, -, rfl⟩ := step_finishes_appends_or_fails h <;> rfl

/-- A step leaves the catalogs alone (R23). -/
theorem step_cat (h : step s = .next t) : t.cat = s.cat := by
  obtain ⟨-, rfl⟩ | ⟨es, -, -, rfl⟩ | ⟨es, e, -, -, -, rfl⟩ := step_finishes_appends_or_fails h <;> rfl

/-- A failing step leaves its error in ERR (R27, R165). -/
theorem step_err_of_fail (h : step s = .next t) (ht : t.outcome = .fail) : ∃ e, t.err = some e := by
  obtain ⟨-, herr⟩ | ⟨hne, -⟩ := step_fails_or_keeps_err h
  · exact herr
  · exact absurd ht hne

/-- A step ends the pass normally only at the end of the stream (R161). -/
theorem step_done_at_end (h : step s = .next t) (ht : t.outcome = .done) : s.len ≤ s.cur := by
  obtain ⟨hle, -⟩ | ⟨es, -, -, rfl⟩ | ⟨es, e, -, -, -, rfl⟩ := step_finishes_appends_or_fails h
  · exact hle
  · simp [step_next_run h] at ht
  · simp at ht

/-- After a failed pass the host reads the error with OUT and CUR (R165, R166). -/
theorem State.hostRead_of_fail {e : DecodeError} (ht : t.outcome = .fail) (he : t.err = some e) :
    t.hostRead = some ⟨t.out, t.cur, .err e⟩ := by
  simp [State.hostRead, ht, he]

/-- An empty buffer ends in its first step (R161). -/
theorem step_start_nil {cat : Catalog} (hw : cat.wf = true) :
    step (State.start [] cat) = .next (State.start [] cat).finish :=
  step_end rfl hw (Nat.le_refl 0)

theorem run_nil {cat : Catalog} (hw : cat.wf = true) : run [] cat = some ⟨[], 0, .ok⟩ := by
  have hpass : runPass 1 (State.start [] cat) = (State.start [] cat).finish :=
    runPass_step 0 (step_start_nil hw)
  calc run [] cat = (State.start [] cat).finish.hostRead := congrArg State.hostRead hpass
    _ = some ⟨[], 0, .ok⟩ := rfl

/-- Settles O23: a failing step writes ERR and keeps OUT's entries, IN, LEN and the catalogs; the state it leaves has ended. -/
theorem firstErrorStopsThePass : Obligations.FirstErrorStopsThePass := by
  intro s t h ht
  obtain ⟨e, he⟩ := step_err_of_fail h ht
  have hended : t.outcome ≠ .run := by simp [ht]
  exact ⟨e, he, State.hostRead_of_fail ht he, step_out_isPrefix h, step_input h, step_len h, step_cat h,
    step_ne_next_of_ended hended, fun n => runPass_ended n hended⟩

/-- Settles O21: at the end of the stream a step is `finish`, and no other branch of the step ends the pass normally. -/
theorem endOfStreamEndsThePass : Obligations.EndOfStreamEndsThePass :=
  ⟨fun _ => step_end, fun _ hw => ⟨step_start_nil hw, run_nil hw⟩,
    fun _ _ h hlt ht => Nat.not_le_of_lt hlt (step_done_at_end h ht)⟩

end Sys2Proof.Machine

/-! The byte-width of an entry (spec 44_decoded_program.md R191). -/

namespace Sys2Proof.Machine

/-- Every entry stands for one byte: an Instruction for its opcode byte alone, its literals being entries of their own (R191). -/
@[simp] theorem Entry.width_eq_one (e : Entry) : e.width = 1 := by
  cases e with
  | instruction d => rfl
  | literal v => rfl
  | escape v => rfl

/-- Settles O47: the width is 1 for an entry of each kind, since it never looks at the descriptor or the byte held. -/
theorem everyEntryIsOneByteWide : Obligations.EveryEntryIsOneByteWide :=
  ⟨fun d => Entry.width_eq_one (.instruction d), fun v => Entry.width_eq_one (.literal v),
    fun v => Entry.width_eq_one (.escape v)⟩

end Sys2Proof.Machine

/-! Where TruncatedEscape is raised (spec 60_exceptions.md R203). -/

namespace Sys2Proof.Machine

variable {s t : State}

/-- With no byte after the escape the prefixed path raises before it appends (R203). -/
theorem prefixedPath_loneEscape (c : Byte) (lits : List Byte) (h : s.len ≤ s.cur + 1) :
    prefixedPath c lits s = s.raise (.truncatedEscape s.cur) s.cur := if_pos h

/-- The plain path raises the two other kinds only (R163). -/
theorem plainPath_err_ne_truncatedEscape (b : Byte) (lits : List Byte) (hs : s.err = none) (o : Nat) :
    (plainPath b lits s).err ≠ some (.truncatedEscape o) := by
  obtain ⟨-, e⟩ | ⟨d, -, -, e⟩ | ⟨d, -, -, e⟩ := plainPath_cases b lits s <;> rw [e]
  · simp
  · simp
  · simp [hs]

/-- With a byte after the escape the prefixed path raises the two other kinds only (R164). -/
theorem prefixedPath_err_ne_truncatedEscape (c : Byte) (lits : List Byte) (hs : s.err = none)
    (h : s.cur + 1 < s.len) (o : Nat) : (prefixedPath c lits s).err ≠ some (.truncatedEscape o) := by
  obtain ⟨hle, -⟩ | ⟨-, -, e⟩ | ⟨d, -, -, -, e⟩ | ⟨d, -, -, -, e⟩ := prefixedPath_cases c lits s
  · exact absurd h (Nat.not_lt_of_le hle)
  · simp [e]
  · simp [e]
  · simp [e, hs]

/-- A step raises TruncatedEscape only at an escape byte that is the last byte of IN, with that byte's offset (R203). -/
theorem step_err_truncatedEscape {o : Nat} (hs : s.err = none) (h : step s = .next t)
    (ht : t.err = some (.truncatedEscape o)) :
    s.cur + 1 = s.len ∧ s.input.read s.cur = escapeByte ∧ o = s.cur := by
  obtain ⟨-, -, ⟨-, rfl⟩ | ⟨-, -, rfl⟩ | ⟨hlast, hb, rfl⟩ | ⟨hlt, -, rfl⟩⟩ := step_cases h
  · simp [hs] at ht
  · exact absurd ht (plainPath_err_ne_truncatedEscape _ _ hs o)
  · cases ht
    exact ⟨hlast, hb, rfl⟩
  · exact absurd ht (prefixedPath_err_ne_truncatedEscape _ _ hs hlt o)

/-- Settles O16: the step at a lone escape byte and the format X rows raise before any append, and of a step's branches no other raises this kind. -/
theorem loneEscapeRaises : Obligations.LoneEscapeRaises := by
  refine ⟨fun s hr hw hlast hb => ?_, fun s c hr hw hle => ⟨?_, ?_⟩,
    fun s t o => step_err_truncatedEscape, by decide⟩
  · exact step_loneEscape hr hw (by omega) (by omega) hb
  · rw [exec_prefixed c hr hw, prefixedPath_loneEscape _ _ hle]
    rfl
  · rw [exec_bit7H hr hw, prefixedPath_loneEscape _ _ hle]
    rfl

end Sys2Proof.Machine

/-! A pass ends, and leaves a reset what it started from (spec 43_stream_assembler.md R172, 70_reset_and_hazards.md R231). -/

namespace Sys2Proof.Machine

variable {s t : State}

/-- In RUN, with a well-formed catalog, a step is always offered (R160). -/
theorem exists_step_of_run (hr : s.outcome = .run) (hw : s.cat.wf = true) : ∃ t, step s = .next t := by
  by_cases hend : s.len ≤ s.cur
  · exact ⟨_, step_end hr hw hend⟩
  have hlt : s.cur < s.len := Nat.lt_of_not_le hend
  by_cases hb : s.input.read s.cur = escapeByte
  · by_cases hlast : s.len ≤ s.cur + 1
    · exact ⟨_, step_loneEscape hr hw hlt hlast hb⟩
    · exact ⟨_, step_prefixed hr hw (Nat.lt_of_not_le hlast) hb⟩
  · exact ⟨_, step_plain hr hw hlt hb⟩

/-- A step that leaves the pass running consumes a byte of IN: the bytes left are the measure of a pass (R172). -/
theorem step_consumes_of_run (h : step s = .next t) (ht : t.outcome = .run) :
    t.len - t.cur < s.len - s.cur := by
  obtain ⟨-, rfl⟩ | ⟨es, hne, hle, rfl⟩ | ⟨es, e, -, -, -, rfl⟩ := step_finishes_appends_or_fails h
  · simp at ht
  · have hpos : 0 < es.length := List.length_pos_of_ne_nil hne
    simp only [State.emit_len, State.emit_cur]
    omega
  · simp at ht

/-- A pass ends within one step more than the bytes it has left: one for each byte, and the one at the end of the stream (R172). -/
theorem runPass_ends {n : Nat} (hw : s.cat.wf = true) (hn : s.len - s.cur < n) :
    (runPass n s).outcome ≠ .run := by
  induction n generalizing s with
  | zero => exact absurd hn (Nat.not_lt_zero _)
  | succ n ih =>
    by_cases hr : s.outcome = .run
    · obtain ⟨t, hstep⟩ := exists_step_of_run hr hw
      rw [runPass_step n hstep]
      by_cases ht : t.outcome = .run
      · have hless := step_consumes_of_run hstep ht
        exact ih ((step_cat hstep).symm ▸ hw) (by omega)
      · rwa [runPass_ended n ht]
    · rwa [runPass_ended (n + 1) hr]

theorem runPass_start_ends (image : List Byte) {cat : Catalog} (hw : cat.wf = true) :
    (runPass (image.length + 1) (State.start image cat)).outcome ≠ .run :=
  runPass_ends hw (Nat.lt_succ_self _)

/-- A pass leaves IN, LEN and the catalogs alone (R231). -/
theorem runPass_frame (n : Nat) (s : State) :
    (runPass n s).input = s.input ∧ (runPass n s).len = s.len ∧ (runPass n s).cat = s.cat :=
  runPass_keeps (P := fun t => t.input = s.input ∧ t.len = s.len ∧ t.cat = s.cat)
    (fun _ _ ⟨hin, hlen, hcat⟩ h =>
      ⟨(step_input h).trans hin, (step_len h).trans hlen, (step_cat h).trans hcat⟩) n ⟨rfl, rfl, rfl⟩

/-- Outside a pass reset is offered, and over the image and the catalogs in place it gives the state a pass over them begins in (R230, R231). -/
theorem State.restart_eq_start {image : List Byte} {cat : Catalog} (hended : s.outcome ≠ .run)
    (hin : s.input = Memory.ofBytes image) (hlen : s.len = image.length) (hcat : s.cat = cat) :
    s.restart = some (State.start image cat) := by
  subst hcat
  cases ho : s.outcome with
  | run => exact absurd ho hended
  | done => simp [State.restart, ho, hin, hlen, State.start, State.reset]
  | fail => simp [State.restart, ho, hin, hlen, State.start, State.reset]

/-- Settles O40: the pass has ended and left IN, LEN and CAT alone, so reset gives its first state again. -/
theorem secondPassGivesTheSameResult : Obligations.SecondPassGivesTheSameResult := by
  intro image cat hw
  obtain ⟨hin, hlen, hcat⟩ := runPass_frame (image.length + 1) (State.start image cat)
  exact ⟨State.start image cat, State.restart_eq_start (runPass_start_ends image hw) hin hlen hcat,
    rfl, rfl, rfl, rfl⟩

end Sys2Proof.Machine

/-! Decoding and encoding invert each other, and where decoding refuses (spec 30_encoding.md R70, R73, R83). -/

namespace Sys2Proof

open Machine

/-- Decoding reads the bytes of a well-formed instruction back whole, whatever follows them (R70, R73). -/
theorem decode_encode_append {i : Instr} (rest : List Byte) (hi : i.wf = true) :
    decode (encode i ++ rest) = .ok (i, rest) := by
  cases i with
  | nop => rfl
  | ldBcD16 a b => rfl
  | ldSpD16 a b => rfl
  | prefixed c =>
    have hc : c ≠ 0x7C#8 := of_decide_eq_true hi
    simp [encode, decode, decodeSecondByte, hc]
  | bit7H => rfl

/-- The byte after the escape always completes an instruction (R74). -/
theorem escape_cons_eq_encode_append (c : Byte) (rest : List Byte) :
    ∃ i : Instr, i.wf = true ∧ escapeByte :: c :: rest = encode i ++ rest := by
  by_cases hc : c = 0x7C#8
  · exact ⟨.bit7H, rfl, by rw [hc]; rfl⟩
  · exact ⟨.prefixed c, decide_eq_true hc, rfl⟩

/-- `bs` begins with a load's opcode byte and ends before its two literals. -/
def LoadCutShort (op : Byte) (lits bs : List Byte) : Prop :=
  (op = 0x01#8 ∨ op = 0x31#8) ∧ lits.length < 2 ∧ bs = op :: lits

/-- `bs` begins with a byte of no row of the opcode table (R78). -/
def HeadOfNoRow (op : Byte) (rest bs : List Byte) : Prop :=
  op ≠ escapeByte ∧ op ≠ 0x00#8 ∧ op ≠ 0x01#8 ∧ op ≠ 0x31#8 ∧ bs = op :: rest

theorem decode_loadCutShort {op : Byte} {lits bs : List Byte} (h : LoadCutShort op lits bs) :
    decode bs = .error (.cutShort op 2 lits.length) := by
  obtain ⟨hop, hlen, rfl⟩ := h
  have hload : ∀ mk, decodeTwoLiterals op mk lits = .error (.cutShort op 2 lits.length) := fun mk => by
    obtain ⟨a, b, r, rfl, -⟩ | ⟨-, hd⟩ := decodeTwoLiterals_cases op mk lits
    · simp at hlen
    · exact hd
  obtain rfl | rfl := hop
  · exact hload _
  · exact hload _

theorem decode_headOfNoRow {op : Byte} {rest bs : List Byte} (h : HeadOfNoRow op rest bs) :
    decode bs = .error (.noRow op) := by
  obtain ⟨hesc, h0, h1, h2, rfl⟩ := h
  simp [decode, hesc, h0, h1, h2]

/-- A load's opcode byte begins a whole load or one cut short. -/
theorem load_whole_or_cutShort {op : Byte} (hop : op = 0x01#8 ∨ op = 0x31#8) (rest : List Byte) :
    LoadCutShort op rest (op :: rest) ∨ ∃ (i : Instr) (r : List Byte), i.wf = true ∧ op :: rest = encode i ++ r := by
  match rest with
  | [] => exact .inl ⟨hop, by decide, rfl⟩
  | [a] => exact .inl ⟨hop, by simp, rfl⟩
  | a :: b :: r =>
    refine .inr ?_
    obtain rfl | rfl := hop
    · exact ⟨.ldBcD16 a b, r, rfl, rfl⟩
    · exact ⟨.ldSpD16 a b, r, rfl, rfl⟩

/-- Every byte list is empty, a lone escape byte, a load cut short, begins with a byte of no row, or begins with the bytes of one well-formed instruction. -/
theorem bytes_cases (bs : List Byte) :
    bs = [] ∨ bs = [escapeByte] ∨ (∃ op lits, LoadCutShort op lits bs) ∨ (∃ op rest, HeadOfNoRow op rest bs) ∨
    ∃ (i : Instr) (rest : List Byte), i.wf = true ∧ bs = encode i ++ rest := by
  match bs with
  | [] => exact .inl rfl
  | op :: rest =>
    by_cases hesc : op = escapeByte
    · subst hesc
      match rest with
      | [] => exact .inr (.inl rfl)
      | c :: rest =>
        obtain ⟨i, hi⟩ := escape_cons_eq_encode_append c rest
        exact .inr (.inr (.inr (.inr ⟨i, rest, hi⟩)))
    · by_cases h0 : op = 0x00#8
      · exact .inr (.inr (.inr (.inr ⟨.nop, rest, rfl, by rw [h0]; rfl⟩)))
      · by_cases hop : op = 0x01#8 ∨ op = 0x31#8
        · obtain hcut | hwhole := load_whole_or_cutShort hop rest
          · exact .inr (.inr (.inl ⟨op, rest, hcut⟩))
          · exact .inr (.inr (.inr (.inr hwhole)))
        · obtain ⟨h1, h2⟩ := not_or.mp hop
          exact .inr (.inr (.inr (.inl ⟨op, rest, hesc, h0, h1, h2, rfl⟩)))

/-- Everything `decode` can answer, with the bytes that make it so. -/
theorem decode_cases (bs : List Byte) :
    (bs = [] ∧ decode bs = .error .endOfStream) ∨
    (bs = [escapeByte] ∧ decode bs = .error .loneEscape) ∨
    (∃ op lits, LoadCutShort op lits bs ∧ decode bs = .error (.cutShort op 2 lits.length)) ∨
    (∃ op rest, HeadOfNoRow op rest bs ∧ decode bs = .error (.noRow op)) ∨
    ∃ (i : Instr) (rest : List Byte), i.wf = true ∧ bs = encode i ++ rest ∧ decode bs = .ok (i, rest) := by
  obtain rfl | rfl | ⟨op, lits, h⟩ | ⟨op, rest, h⟩ | ⟨i, rest, hi, rfl⟩ := bytes_cases bs
  · exact .inl ⟨rfl, rfl⟩
  · exact .inr (.inl ⟨rfl, rfl⟩)
  · exact .inr (.inr (.inl ⟨op, lits, h, decode_loadCutShort h⟩))
  · exact .inr (.inr (.inr (.inl ⟨op, rest, h, decode_headOfNoRow h⟩)))
  · exact .inr (.inr (.inr (.inr ⟨i, rest, hi, rfl, decode_encode_append rest hi⟩)))

/-- Settles O1: for each constructor the decoder's tests at the head of its encoding lead back to it; only PREFIX needs its well-formedness. -/
theorem decodeReadsEncodedInstruction : Obligations.DecodeReadsEncodedInstruction :=
  fun _ rest hi => decode_encode_append rest hi

/-- What decoding took is the encoding of the well-formed instruction it answers (R70, R73, R83). -/
theorem encode_of_decode {bs rest : List Byte} {i : Instr} (h : decode bs = .ok (i, rest)) :
    i.wf = true ∧ encode i ++ rest = bs := by
  obtain ⟨-, hd⟩ | ⟨-, hd⟩ | ⟨op, lits, -, hd⟩ | ⟨op, rest', -, hd⟩ | ⟨i', rest', hi, hbs, hd⟩ := decode_cases bs <;>
    rw [hd] at h <;> cases h
  exact ⟨hi, hbs.symm⟩

/-- Settles O2: of the answers decoding can give, only one is an instruction. -/
theorem decodedBytesAreTheEncoding : Obligations.DecodedBytesAreTheEncoding :=
  fun _ _ _ => encode_of_decode

theorem decode_endOfStream_iff (bs : List Byte) : decode bs = .error .endOfStream ↔ bs = [] := by
  refine ⟨fun h => ?_, fun h => by rw [h]; rfl⟩
  obtain ⟨hbs, -⟩ | ⟨-, hd⟩ | ⟨op, lits, -, hd⟩ | ⟨op, rest, -, hd⟩ | ⟨i, rest, -, -, hd⟩ := decode_cases bs
  · exact hbs
  all_goals rw [hd] at h; cases h

theorem decode_loneEscape_iff (bs : List Byte) : decode bs = .error .loneEscape ↔ bs = [escapeByte] := by
  refine ⟨fun h => ?_, fun h => by rw [h]; rfl⟩
  obtain ⟨-, hd⟩ | ⟨hbs, -⟩ | ⟨op, lits, -, hd⟩ | ⟨op, rest, -, hd⟩ | ⟨i, rest, -, -, hd⟩ := decode_cases bs
  case inr.inl => exact hbs
  all_goals rw [hd] at h; cases h

theorem decode_cutShort_iff (bs : List Byte) (op : Byte) (n a : Nat) :
    decode bs = .error (.cutShort op n a) ↔ n = 2 ∧ ∃ lits, lits.length = a ∧ LoadCutShort op lits bs := by
  constructor
  · intro h
    obtain ⟨-, hd⟩ | ⟨-, hd⟩ | ⟨op', lits, hcut, hd⟩ | ⟨op', rest, -, hd⟩ | ⟨i, rest, -, -, hd⟩ := decode_cases bs <;>
      rw [hd] at h <;> cases h
    exact ⟨rfl, lits, rfl, hcut⟩
  · rintro ⟨rfl, lits, rfl, hcut⟩
    exact decode_loadCutShort hcut

theorem decode_noRow_iff (bs : List Byte) (op : Byte) :
    decode bs = .error (.noRow op) ↔ ∃ rest, HeadOfNoRow op rest bs := by
  constructor
  · intro h
    obtain ⟨-, hd⟩ | ⟨-, hd⟩ | ⟨op', lits, -, hd⟩ | ⟨op', rest, hrow, hd⟩ | ⟨i, rest, -, -, hd⟩ := decode_cases bs <;>
      rw [hd] at h <;> cases h
    exact ⟨rest, hrow⟩
  · rintro ⟨rest, hrow⟩
    exact decode_headOfNoRow hrow

/-- Settles O3: the five kinds of byte list exclude each other, and each refusal belongs to one of them. -/
theorem decodeRefusesByName : Obligations.DecodeRefusesByName := by
  refine fun bs => ⟨decode_endOfStream_iff bs, decode_loneEscape_iff bs, fun op n a => ?_, fun op => ?_⟩
  · rw [decode_cutShort_iff]
    constructor
    · rintro ⟨hn, lits, rfl, hop, hlen, hbs⟩
      exact ⟨hop, hn, hlen, lits, hbs, rfl⟩
    · rintro ⟨hop, hn, hlen, lits, hbs, rfl⟩
      exact ⟨hn, lits, rfl, hop, hlen, hbs⟩
  · rw [decode_noRow_iff]
    simp only [HeadOfNoRow, exists_and_left]

/-- Settles O4: each word is the encoding of its row, and 0x7C in the first place is a byte of no row. -/
theorem tableWordsDecode : Obligations.TableWordsDecode :=
  ⟨decode_encode_append (i := .nop) [] rfl,
    decode_encode_append (i := .ldBcD16 0x34#8 0x12#8) [] rfl,
    decode_encode_append (i := .ldSpD16 0xFE#8 0xFF#8) [] rfl,
    decode_encode_append (i := .prefixed 0x11#8) [] rfl,
    decode_encode_append (i := .bit7H) [] rfl,
    decode_headOfNoRow (rest := []) ⟨by decide, by decide, by decide, by decide, rfl⟩⟩

end Sys2Proof

/-! The two paths, one equation for each branch (spec 43_stream_assembler.md R163, R164), and what they make of each instruction of the table (41_opcode_catalog.md section 3, 60_exceptions.md section 1). -/

namespace Sys2Proof.Machine

variable {s : State}

/-- An entry's literals lie inside IN in the source's form of the bound (R163, R164). -/
theorem Descriptor.trailing_le_iff (d : Descriptor) {a len : Nat} (ha : a ≤ len) :
    d.trailing ≤ len - a ↔ a + (d.totalLength - 1) ≤ len := Nat.le_sub_iff_add_le' ha

theorem Descriptor.lt_trailing_iff (d : Descriptor) {a len : Nat} (ha : a ≤ len) :
    len - a < d.trailing ↔ len < a + (d.totalLength - 1) := Nat.sub_lt_iff_lt_add' ha

theorem plainPath_miss {b : Byte} (lits : List Byte) (h : s.cat.lookupPrimary b = none) :
    plainPath b lits s = s.raise (.unimplementedOpcode b false s.cur) s.cur := by
  simp [plainPath, decodePrimary_of_none h, LookupMiss.at]

theorem plainPath_cut {b : Byte} {d : Descriptor} (lits : List Byte) (h : s.cat.lookupPrimary b = some d)
    (hn : s.len - (s.cur + 1) < d.trailing) :
    plainPath b lits s = s.raise (.truncatedOperand s.cur d.trailing (s.len - (s.cur + 1))) s.cur := by
  simp [plainPath, decodePrimary_of_some h, hn]

theorem plainPath_whole {b : Byte} {d : Descriptor} (lits : List Byte) (h : s.cat.lookupPrimary b = some d)
    (hn : d.trailing ≤ s.len - (s.cur + 1)) :
    plainPath b lits s = s.emit (instructionEntries d lits) (s.cur + 1 + d.trailing) := by
  simp [plainPath, decodePrimary_of_some h, Nat.not_lt.mpr hn]

theorem prefixedPath_miss {c : Byte} (lits : List Byte) (hlt : s.cur + 1 < s.len)
    (h : s.cat.lookupSecondary c = none) :
    prefixedPath c lits s = (s.emit [.escape escapeByte] (s.cur + 1)).raise
      (.unimplementedOpcode c true (s.cur + 1)) (s.cur + 1) := by
  simp [prefixedPath, Nat.not_le.mpr hlt, decodeSecondary_of_none h, LookupMiss.at]

theorem prefixedPath_cut {c : Byte} {d : Descriptor} (lits : List Byte) (hlt : s.cur + 1 < s.len)
    (h : s.cat.lookupSecondary c = some d) (hn : s.len - (s.cur + 2) < d.trailing) :
    prefixedPath c lits s = (s.emit [.escape escapeByte] (s.cur + 1)).raise
      (.truncatedOperand (s.cur + 1) d.trailing (s.len - (s.cur + 2))) (s.cur + 1) := by
  simp [prefixedPath, Nat.not_le.mpr hlt, decodeSecondary_of_some h, hn]

theorem prefixedPath_whole {c : Byte} {d : Descriptor} (lits : List Byte) (hlt : s.cur + 1 < s.len)
    (h : s.cat.lookupSecondary c = some d) (hn : d.trailing ≤ s.len - (s.cur + 2)) :
    prefixedPath c lits s =
      s.emit (.escape escapeByte :: instructionEntries d lits) (s.cur + 2 + d.trailing) := by
  simp [prefixedPath, Nat.not_le.mpr hlt, decodeSecondary_of_some h, Nat.not_lt.mpr hn, State.emit]

/-- With its literals inside IN, an entry's literals are the bytes of IN after its opcode (R163). -/
theorem instructionEntries_bytesFrom {d : Descriptor} {a : Nat} (h : d.trailing ≤ s.len - a) :
    instructionEntries d (s.bytesFrom a) = .instruction d :: (s.input.slice a d.trailing).map .literal := by
  rw [instructionEntries, State.take_bytesFrom h]

/-- Settles O9: the entry of NOP, which every well-formed catalog holds, declares no literal. -/
theorem nopEmitsItsEntry : Obligations.NopEmitsItsEntry := by
  intro s hr hw
  rw [exec_nop hr hw, plainPath_whole [] (Catalog.primary_nop hw) (Nat.zero_le _)]
  rfl

/-- Settles O10: the entries of both loads, which every well-formed catalog holds, declare two literals. -/
theorem loadsEmitEntryAndLiterals : Obligations.LoadsEmitEntryAndLiterals := by
  intro s a b hr hw hle
  have htwo : 2 ≤ s.len - (s.cur + 1) := by omega
  constructor
  · rw [exec_ldBcD16 a b hr hw, plainPath_whole [a, b] (Catalog.primary_ldBc hw) htwo]
    rfl
  · rw [exec_ldSpD16 a b hr hw, plainPath_whole [a, b] (Catalog.primary_ldSp hw) htwo]
    rfl

/-- Settles O11: the secondary entry at 0x7C, which every well-formed catalog holds, declares no literal. -/
theorem bitTestEmitsEscapeAndEntry : Obligations.BitTestEmitsEscapeAndEntry := by
  intro s hr hw hle
  rw [exec_bit7H hr hw, prefixedPath_whole [] (by omega) (Catalog.secondary_bit7H hw) (Nat.zero_le _)]
  rfl

/-- Settles O12: the prefixed path takes the declared literals from IN at CUR + 2. -/
theorem prefixEmitsSecondaryInstruction : Obligations.PrefixEmitsSecondaryInstruction := by
  intro s c d hr hw hd hle
  have hn := (d.trailing_le_iff (by omega)).mpr hle
  rw [exec_prefixed c hr hw, prefixedPath_whole _ (by omega) hd hn, instructionEntries_bytesFrom hn]
  rfl

/-- Settles O13: fewer than two bytes after the opcode are fewer than both loads' entries declare. -/
theorem loadsCutShortRaise : Obligations.LoadsCutShortRaise := by
  intro s a b hr hw hlt hshort
  have htwo : s.len - (s.cur + 1) < 2 := by omega
  constructor
  · rw [exec_ldBcD16 a b hr hw, plainPath_cut [a, b] (Catalog.primary_ldBc hw) htwo]
    rfl
  · rw [exec_ldSpD16 a b hr hw, plainPath_cut [a, b] (Catalog.primary_ldSp hw) htwo]
    rfl

/-- Settles O14: the miss is found after the Escape was appended (D6). -/
theorem secondaryMissKeepsTheEscape : Obligations.SecondaryMissKeepsTheEscape := by
  intro s c hr hw hle hd
  rw [exec_prefixed c hr hw, prefixedPath_miss _ (by omega) hd]
  rfl

/-- Settles O15: the truncation is found after the Escape was appended (D6). -/
theorem secondaryOperandsCutShortRaise : Obligations.SecondaryOperandsCutShortRaise := by
  intro s c d hr hw hle hd hshort
  have hn := (d.lt_trailing_iff hle).mpr hshort
  rw [exec_prefixed c hr hw, prefixedPath_cut _ (by omega) hd hn]
  rfl

end Sys2Proof.Machine

/-! The step against the decoder and against the spec's loop (spec 43_stream_assembler.md R160 to R164). -/

namespace Sys2Proof.Machine

variable {s : State}

/-- A byte list from CUR with a head gives the byte IN holds there, and the rest. -/
theorem State.bytesFrom_eq_cons {a : Nat} {b : Byte} {rest : List Byte} (h : s.bytesFrom a = b :: rest) :
    a < s.len ∧ s.input.read a = b ∧ s.bytesFrom (a + 1) = rest := by
  have hlt : a < s.len := by
    by_contra hge
    rw [State.bytesFrom_of_le (Nat.le_of_not_lt hge)] at h
    cases h
  rw [State.bytesFrom_of_lt hlt] at h
  cases h
  exact ⟨hlt, rfl, rfl⟩

theorem State.bytesFrom_eq_nil {a : Nat} (h : s.bytesFrom a = []) : s.len ≤ a := by
  have hlen := s.length_bytesFrom a
  rw [h, List.length_nil] at hlen
  omega

theorem encode_ne_nil (i : Instr) : encode i ≠ [] := by
  cases i <;> exact List.cons_ne_nil _ _

/-- The bytes from CUR that begin with an encoding lie inside IN and are the bytes IN holds there (R50). -/
theorem State.slice_of_bytesFrom_append {a : Nat} {bs rest : List Byte} (hne : bs ≠ [])
    (h : s.bytesFrom a = bs ++ rest) : a + bs.length ≤ s.len ∧ s.input.slice a bs.length = bs := by
  have hlen := s.length_bytesFrom a
  rw [h, List.length_append] at hlen
  have hpos := List.length_pos_of_ne_nil hne
  have hfits : bs.length ≤ s.len - a := by omega
  refine ⟨by omega, ?_⟩
  rw [← State.take_bytesFrom hfits, h, List.take_left]

/-- Settles O17: the step runs what `decode` answers, and what it answers encodes to the bytes it took. -/
theorem stepRunsTheDecodedInstruction : Obligations.StepRunsTheDecodedInstruction := by
  intro s i rest hr hw hd
  obtain ⟨hi, hbytes⟩ := encode_of_decode hd
  obtain ⟨hle, hslice⟩ := State.slice_of_bytesFrom_append (encode_ne_nil i) hbytes.symm
  refine ⟨?_, hi, hle, hslice⟩
  cases hb : s.bytesFrom s.cur with
  | nil => rw [hb] at hd; cases hd
  | cons b r => rw [hb] at hd; exact step_of_decode hr hw hb hd

/-- A load's two opcode bytes have entries that declare two literals in every well-formed catalog (R127 c). -/
theorem Catalog.primary_load {c : Catalog} {op : Byte} (hw : c.wf = true) (hop : op = 0x01#8 ∨ op = 0x31#8) :
    ∃ d, c.lookupPrimary op = some d ∧ d.trailing = 2 := by
  obtain rfl | rfl := hop
  · exact ⟨dLdBc, Catalog.primary_ldBc hw, rfl⟩
  · exact ⟨dLdSp, Catalog.primary_ldSp hw, rfl⟩

theorem load_ne_escape {op : Byte} (hop : op = 0x01#8 ∨ op = 0x31#8) : op ≠ escapeByte := by
  obtain rfl | rfl := hop <;> decide

/-- The plain path at CUR, for an opcode byte named apart from IN. -/
theorem step_plain_of_bytesFrom {op : Byte} {rest : List Byte} (hr : s.outcome = .run) (hw : s.cat.wf = true)
    (hb : s.bytesFrom s.cur = op :: rest) (hop : op ≠ escapeByte) :
    step s = .next (plainPath op (s.bytesFrom (s.cur + 1)) s) := by
  obtain ⟨hlt, rfl, -⟩ := State.bytesFrom_eq_cons hb
  exact step_plain hr hw hlt hop

theorem step_of_loadCutShort {op : Byte} {lits : List Byte} (hr : s.outcome = .run) (hw : s.cat.wf = true)
    (h : LoadCutShort op lits (s.bytesFrom s.cur)) :
    step s = .next (s.raise (.truncatedOperand s.cur 2 lits.length) s.cur) := by
  obtain ⟨hop, hshort, hb⟩ := h
  obtain ⟨d, hd, htwo⟩ := Catalog.primary_load hw hop
  obtain ⟨-, -, rfl⟩ := State.bytesFrom_eq_cons hb
  rw [State.length_bytesFrom] at hshort ⊢
  rw [step_plain_of_bytesFrom hr hw hb (load_ne_escape hop), plainPath_cut _ hd (by omega), htwo]

/-- Settles O18: each refusal of `decode` names the bytes at CUR, and they name the step's branch. -/
theorem stepOffTheTable : Obligations.StepOffTheTable := by
  refine fun s hr hw => ⟨fun hd => ?_, fun hd => ?_, fun op n a hd => ?_, fun op hd => ?_⟩
  · exact step_end hr hw (State.bytesFrom_eq_nil ((decode_endOfStream_iff _).mp hd))
  · obtain ⟨hlt, hb, hrest⟩ := State.bytesFrom_eq_cons ((decode_loneEscape_iff _).mp hd)
    exact step_loneEscape hr hw hlt (State.bytesFrom_eq_nil hrest) hb
  · obtain ⟨rfl, lits, rfl, hcut⟩ := (decode_cutShort_iff _ op n a).mp hd
    exact step_of_loadCutShort hr hw hcut
  · obtain ⟨rest, hop, -, -, -, hb⟩ := (decode_noRow_iff _ op).mp hd
    obtain ⟨hlt, -, -⟩ := State.bytesFrom_eq_cons hb
    rw [step_plain_of_bytesFrom hr hw hb hop]
    refine ⟨fun hmiss => ?_, fun d hentry hle => ?_, fun d hentry hshort => ?_⟩
    · rw [plainPath_miss _ hmiss]
      rfl
    · have hn := (d.trailing_le_iff hlt).mpr hle
      rw [plainPath_whole _ hentry hn, instructionEntries_bytesFrom hn]
      rfl
    · have hn := (d.lt_trailing_iff hlt).mpr hshort
      rw [plainPath_cut _ hentry hn]
      rfl

/-- Copying literals one at a time appends the bytes of IN from `a` on, in order. -/
theorem copyLiterals_eq (n a : Nat) (s : State) :
    copyLiterals n a s = s.emit ((s.input.slice a n).map .literal) s.cur := by
  induction n generalizing a s with
  | zero => simp [copyLiterals, Memory.slice, State.emit]
  | succ n ih => simp [copyLiterals, ih, Memory.slice, State.emit]

/-- The plain path with the literals that stand in IN is the loop's plain path (R163, D5, D7). -/
theorem loopPlain_eq_plainPath (b : Byte) (hlt : s.cur < s.len) :
    loopPlain b s = plainPath b (s.bytesFrom (s.cur + 1)) s := by
  cases hl : s.cat.lookupPrimary b with
  | none => simp [loopPlain, hl, plainPath_miss _ hl]
  | some d =>
    by_cases hn : s.cur + 1 + (d.totalLength - 1) ≤ s.len
    · have hn' := (d.trailing_le_iff hlt).mpr hn
      rw [plainPath_whole _ hl hn', instructionEntries_bytesFrom hn']
      simp [loopPlain, hl, hn, copyLiterals_eq, State.emit, Descriptor.trailing]
    · have hn' := (d.lt_trailing_iff hlt).mpr (Nat.lt_of_not_le hn)
      rw [plainPath_cut _ hl hn']
      simp [loopPlain, hl, hn, Descriptor.trailing, Nat.sub_sub]

/-- The prefixed path with the literals that stand in IN is the loop's, the Escape appended first (R164, D6). -/
theorem loopSecondary_eq_prefixedPath (c : Byte) (hlt : s.cur + 1 < s.len) :
    loopSecondary c { s with out := s.out ++ [.escape escapeByte] } =
      prefixedPath c (s.bytesFrom (s.cur + 2)) s := by
  cases hl : s.cat.lookupSecondary c with
  | none =>
    rw [prefixedPath_miss _ hlt hl]
    simp [loopSecondary, hl, State.raise, State.emit]
  | some d =>
    by_cases hn : s.cur + 2 + (d.totalLength - 1) ≤ s.len
    · have hn' := (d.trailing_le_iff hlt).mpr hn
      rw [prefixedPath_whole _ hlt hl hn', instructionEntries_bytesFrom hn']
      simp [loopSecondary, hl, hn, copyLiterals_eq, State.emit, Descriptor.trailing]
    · have hn' := (d.lt_trailing_iff hlt).mpr (Nat.lt_of_not_le hn)
      rw [prefixedPath_cut _ hlt hl hn']
      simp [loopSecondary, hl, hn, Descriptor.trailing, State.raise, State.emit, Nat.sub_sub]

/-- Settles O19: the loop's tests on the bytes of IN are the step's branches, and each path is the loop's own. -/
theorem stepIsTheSpecLoop : Obligations.StepIsTheSpecLoop := by
  intro s hr hw
  by_cases hend : s.len ≤ s.cur
  · rw [step_end hr hw hend]
    simp [loopStep, State.byteAt_of_le hend, State.finish]
  have hlt : s.cur < s.len := Nat.lt_of_not_le hend
  by_cases hb : s.input.read s.cur = escapeByte
  · by_cases hlast : s.len ≤ s.cur + 1
    · rw [step_loneEscape hr hw hlt hlast hb]
      simp [loopStep, State.byteAt_of_lt hlt, hb, State.byteAt_of_le hlast]
    · have hlt' : s.cur + 1 < s.len := Nat.lt_of_not_le hlast
      rw [step_prefixed hr hw hlt' hb, ← loopSecondary_eq_prefixedPath _ hlt']
      simp [loopStep, State.byteAt_of_lt hlt, hb, State.byteAt_of_lt hlt']
  · rw [step_plain hr hw hlt hb, ← loopPlain_eq_plainPath _ hlt]
    simp [loopStep, State.byteAt_of_lt hlt, hb]

/-- Settles O20: the guard lets a step through exactly in RUN over a well-formed catalog, and every branch behind it answers next. -/
theorem stepEnabledExactlyInRun : Obligations.StepEnabledExactlyInRun := by
  refine fun s => ⟨⟨fun ⟨t, h⟩ => ?_, fun ⟨hr, hw⟩ => exists_step_of_run hr hw⟩,
    whenEnabled_ended, whenEnabled_illFormed⟩
  obtain ⟨hr, hw, -⟩ := step_cases h
  exact ⟨hr, hw⟩

end Sys2Proof.Machine

/-! Catalogs, entries and the host's side (spec 41_opcode_catalog.md, 44_decoded_program.md, 70_reset_and_hazards.md, 10_state.md R32). -/

namespace Sys2Proof.Machine

/-- Settles O6: each table of CAT_MIN is searched from its head, and its bytes are all different. -/
theorem baselineCatalogContent : Obligations.BaselineCatalogContent := by
  refine ⟨catMin_wf, fun b => ?_, fun b => ?_⟩
  · simp only [Catalog.lookupPrimary, catMin, Table.entry, dNop, dLdBc, dLdSp, eq_comm (b := b)]
  · simp only [Catalog.lookupSecondary, catMin, Table.entry, dBit7H, eq_comm (b := b)]

/-- Settles O8: an entry found stands in one of the two tables, each of which checks all its entries. -/
theorem catalogEntriesHaveTheirInvariants : Obligations.CatalogEntriesHaveTheirInvariants := by
  intro c b d hw h
  obtain ⟨hp, hs, -⟩ := Catalog.wf_clauses hw
  obtain h | h := h
  · exact Table.wf_entry hp h
  · exact Table.wf_entry hs h

/-- The byte-widths of entries add up to their number (R191). -/
theorem sum_width (out : List Entry) : (out.map Entry.width).sum = out.length := by
  induction out with
  | nil => rfl
  | cons e out ih => rw [List.map_cons, List.sum_cons, ih, Entry.width_eq_one, List.length_cons, Nat.add_comm]

/-- `consumed_bytes` is `entry_count` (R195). -/
theorem consumedBytes_eq_length (out : List Entry) : consumedBytes out = out.length := sum_width out

theorem offsetOf_of_le {out : List Entry} {k : Nat} (h : k ≤ out.length) : offsetOf out k = some k := by
  rw [offsetOf, if_pos h, sum_width, List.length_take_of_le h]

/-- Settles O48: each entry is one byte wide, so a sum of widths is a number of entries. -/
theorem offsetOfAnEntryIsItsIndex : Obligations.OffsetOfAnEntryIsItsIndex := by
  refine fun out k => ⟨offsetOf_of_le, fun h => if_neg (Nat.not_le_of_lt h), List.getElem?_eq_getElem,
    List.getElem?_eq_none, rfl, consumedBytes_eq_length out, ?_⟩
  rw [offsetOf_of_le le_rfl, consumedBytes_eq_length]

/-- Settles O49: each of the host's moves is defined by OUTCOME. -/
theorem hostMovesOnlyOutsideAPass : Obligations.HostMovesOnlyOutsideAPass := by
  refine fun s image => ⟨fun hr => ?_, fun hended => ?_, fun hdone => ?_, fun e => State.hostRead_of_fail⟩
  · simp [State.hostRead, State.restart, State.supply, hr]
  · cases ho : s.outcome with
    | run => exact absurd ho hended
    | done => simp [State.restart, State.supply, ho]
    | fail => simp [State.restart, State.supply, ho]
  · simp [State.hostRead, hdone]

/-- Settles O50: each view is defined by the kind of the record. -/
theorem errorRecordViews : Obligations.ErrorRecordViews := by
  refine ⟨?_, fun b p o => ?_, fun o n a => ?_, fun o => ?_⟩ <;> exact ⟨rfl, rfl, rfl, rfl, rfl, rfl⟩

/-- Every offset of IN reads as the image does, with no byte past its end (R12, R233). -/
theorem State.start_byteAt (image : List Byte) (cat : Catalog) (a : Nat) :
    (State.start image cat).byteAt a = image[a]? := by
  by_cases h : a < image.length
  · rw [State.byteAt_of_lt (by simpa using h), State.start_input, Memory.read_ofBytes,
      List.getElem?_eq_getElem h, Option.getD_some]
  · rw [State.byteAt_of_le (by simpa using h), List.getElem?_eq_none (Nat.le_of_not_lt h)]

/-- Settles O32: the start is reset with the host's fields put in, and the buffer made from an image reads as it. -/
theorem startHoldsTheImage : Obligations.StartHoldsTheImage :=
  fun image cat => ⟨rfl, rfl, rfl, rfl, rfl, rfl, rfl, rfl, State.start_byteAt image cat⟩

end Sys2Proof.Machine

/-! What every instruction leaves unchanged, and how a step fails (spec 10_state.md R21 to R27, 60_exceptions.md). -/

namespace Sys2Proof.Machine

variable {s t : State}

/-- IN, LEN and CAT stand, OUT keeps its entries, CUR does not fall, and ERR stands unless the pass failed (R21 to R27, R171). -/
def LeavesTheRest (s t : State) : Prop :=
  t.input = s.input ∧ t.len = s.len ∧ t.cat = s.cat ∧ s.out <+: t.out ∧ s.cur ≤ t.cur ∧
    (t.outcome ≠ .fail → t.err = s.err)

theorem leavesTheRest_finish (s : State) : LeavesTheRest s s.finish := by simp [LeavesTheRest]

theorem leavesTheRest_emit {es : List Entry} {cur : Nat} (h : s.cur ≤ cur) : LeavesTheRest s (s.emit es cur) := by
  simp [LeavesTheRest, h]

theorem leavesTheRest_raise {e : DecodeError} (h : LeavesTheRest s t) : LeavesTheRest s (t.raise e t.cur) := by
  obtain ⟨hin, hlen, hcat, hout, hcur, -⟩ := h
  exact ⟨hin, hlen, hcat, hout, hcur, fun hne => absurd rfl hne⟩

theorem leavesTheRest_refl (s : State) : LeavesTheRest s s := by simp [LeavesTheRest]

theorem plainPath_leavesTheRest (b : Byte) (lits : List Byte) (s : State) :
    LeavesTheRest s (plainPath b lits s) := by
  obtain ⟨-, e⟩ | ⟨d, -, -, e⟩ | ⟨d, -, -, e⟩ := plainPath_cases b lits s <;> rw [e]
  · exact leavesTheRest_raise (leavesTheRest_refl s)
  · exact leavesTheRest_raise (leavesTheRest_refl s)
  · exact leavesTheRest_emit (by omega)

theorem prefixedPath_leavesTheRest (c : Byte) (lits : List Byte) (s : State) :
    LeavesTheRest s (prefixedPath c lits s) := by
  have hescape : LeavesTheRest s (s.emit [.escape escapeByte] (s.cur + 1)) := leavesTheRest_emit (by omega)
  obtain ⟨-, e⟩ | ⟨-, -, e⟩ | ⟨d, -, -, -, e⟩ | ⟨d, -, -, -, e⟩ := prefixedPath_cases c lits s <;> rw [e]
  · exact leavesTheRest_raise (leavesTheRest_refl s)
  · exact leavesTheRest_raise hescape
  · exact leavesTheRest_raise hescape
  · exact leavesTheRest_emit (by omega)

theorem step_leavesTheRest (h : step s = .next t) : LeavesTheRest s t := by
  obtain ⟨-, -, ⟨-, rfl⟩ | ⟨-, -, rfl⟩ | ⟨-, -, rfl⟩ | ⟨-, -, rfl⟩⟩ := step_cases h
  · exact leavesTheRest_finish s
  · exact plainPath_leavesTheRest _ _ s
  · exact leavesTheRest_raise (leavesTheRest_refl s)
  · exact prefixedPath_leavesTheRest _ _ s

theorem eq_of_whenEnabled_next {u : State} (h : whenEnabled s (.next u) = .next t) : t = u := by
  obtain ⟨-, -, e⟩ := whenEnabled_next h
  cases e
  rfl

/-- The format P rows run the plain path, the format X rows the prefixed one (R130 to R134). -/
theorem exec_cases {i : Instr} (h : exec i s = .next t) :
    (∃ b lits, t = plainPath b lits s) ∨ ∃ c lits, t = prefixedPath c lits s := by
  cases i with
  | nop => exact .inl ⟨_, _, eq_of_whenEnabled_next h⟩
  | ldBcD16 a b => exact .inl ⟨_, _, eq_of_whenEnabled_next h⟩
  | ldSpD16 a b => exact .inl ⟨_, _, eq_of_whenEnabled_next h⟩
  | prefixed c => exact .inr ⟨_, _, eq_of_whenEnabled_next h⟩
  | bit7H => exact .inr ⟨_, _, eq_of_whenEnabled_next h⟩

theorem exec_leavesTheRest {i : Instr} (h : exec i s = .next t) : LeavesTheRest s t := by
  obtain ⟨b, lits, rfl⟩ | ⟨c, lits, rfl⟩ := exec_cases h
  · exact plainPath_leavesTheRest b lits s
  · exact prefixedPath_leavesTheRest c lits s

/-- Settles O22: both paths emit and raise only, and an instruction is one of the two paths. -/
theorem instructionsLeaveTheRestUnchanged : Obligations.InstructionsLeaveTheRestUnchanged := by
  intro s t h
  have hrest : LeavesTheRest s t := by
    obtain h | ⟨i, h⟩ := h
    · exact step_leavesTheRest h
    · exact exec_leavesTheRest h
  obtain ⟨hin, hlen, hcat, hout, hcur, herr⟩ := hrest
  exact ⟨hin, hlen, hcat, fun a => by simp only [State.byteAt, hin, hlen], hout, hcur, herr⟩

/-- `t` is `s` with an error taken at CUR, after the entries `es`. -/
def FailsAfter (es : List Entry) (s t : State) : Prop :=
  ∃ e : DecodeError, e.legal ∧ e.offset = s.cur + es.length ∧ s.cur + es.length < s.len ∧
    t = (s.emit es e.offset).raise e e.offset

theorem failsAfter_nil {e : DecodeError} (hlegal : e.legal) (he : e.offset = s.cur) (h : s.cur < s.len) :
    FailsAfter [] s (s.raise e s.cur) :=
  ⟨e, hlegal, he, h, by simp [he, State.emit, State.raise]⟩

theorem failsAfter_escape {e : DecodeError} (hlegal : e.legal) (he : e.offset = s.cur + 1)
    (h : s.cur + 1 < s.len) :
    FailsAfter [.escape escapeByte] s ((s.emit [.escape escapeByte] (s.cur + 1)).raise e (s.cur + 1)) :=
  ⟨e, hlegal, he, h, by rw [he]⟩

/-- Fewer literals than an entry declares make a legal record (R32). -/
theorem legal_truncatedOperand {o n a : Nat} (h : a < n) : (DecodeError.truncatedOperand o n a).legal :=
  ⟨by omega, h⟩

theorem plainPath_failsAfter {b : Byte} {lits : List Byte} (hr : s.outcome = .run) (hlt : s.cur < s.len)
    (h : (plainPath b lits s).outcome = .fail) : FailsAfter [] s (plainPath b lits s) := by
  obtain ⟨-, e⟩ | ⟨d, -, hn, e⟩ | ⟨d, -, -, e⟩ := plainPath_cases b lits s <;> rw [e] at h ⊢
  · exact failsAfter_nil trivial rfl hlt
  · exact failsAfter_nil (legal_truncatedOperand hn) rfl hlt
  · simp [hr] at h

theorem prefixedPath_failsAfter {c : Byte} {lits : List Byte} (hr : s.outcome = .run) (hlt : s.cur + 1 < s.len)
    (h : (prefixedPath c lits s).outcome = .fail) :
    FailsAfter [.escape escapeByte] s (prefixedPath c lits s) := by
  obtain ⟨hle, -⟩ | ⟨-, -, e⟩ | ⟨d, -, -, hn, e⟩ | ⟨d, -, -, -, e⟩ := prefixedPath_cases c lits s
  · omega
  all_goals rw [e] at h ⊢
  · exact failsAfter_escape trivial rfl hlt
  · exact failsAfter_escape (legal_truncatedOperand hn) rfl hlt
  · simp [hr] at h

/-- A failing step takes a legal error inside IN, before any append or after an accepted Escape (R165, D6). -/
theorem step_failsAfter (h : step s = .next t) (ht : t.outcome = .fail) :
    FailsAfter [] s t ∨ (s.input.read s.cur = escapeByte ∧ FailsAfter [.escape escapeByte] s t) := by
  obtain ⟨hr, -, ⟨-, rfl⟩ | ⟨hlt, -, rfl⟩ | ⟨hlast, -, rfl⟩ | ⟨hlt, hb, rfl⟩⟩ := step_cases h
  · simp at ht
  · exact .inl (plainPath_failsAfter hr hlt ht)
  · exact .inl (failsAfter_nil trivial rfl (by omega))
  · exact .inr ⟨hb, prefixedPath_failsAfter hr hlt ht⟩

/-- Settles O24: an error is raised at its own offset, before any append or after the Escape alone. -/
theorem failingInstructionLeavesNoEntryButItsEscape :
    Obligations.FailingInstructionLeavesNoEntryButItsEscape := by
  intro s t h ht
  obtain ⟨e, -, he, -, rfl⟩ | ⟨hb, e, -, he, -, rfl⟩ := step_failsAfter h ht
  · exact ⟨⟨e, rfl, rfl⟩, .inl ⟨by simp, by simpa using he⟩⟩
  · exact ⟨⟨e, rfl, rfl⟩, .inr ⟨rfl, by simpa using he, hb⟩⟩

/-- The plain path fails exactly on a miss or on literals past the end (R201, R202). -/
theorem plainPath_fail_iff {b : Byte} {lits : List Byte} (hr : s.outcome = .run) (hlt : s.cur < s.len) :
    (plainPath b lits s).outcome = .fail ↔ s.cat.lookupPrimary b = none ∨
      ∃ d, s.cat.lookupPrimary b = some d ∧ s.len < s.cur + 1 + (d.totalLength - 1) := by
  simp only [← Descriptor.lt_trailing_iff _ (Nat.succ_le_of_lt hlt)]
  obtain ⟨hd, e⟩ | ⟨d, hd, hn, e⟩ | ⟨d, hd, hn, e⟩ := plainPath_cases b lits s <;> rw [e, hd]
  · simp
  · simpa using hn
  · simpa [hr] using hn

/-- With a byte after the escape, the prefixed path fails exactly on a miss or on literals past the end (R201, R202). -/
theorem prefixedPath_fail_iff {c : Byte} {lits : List Byte} (hr : s.outcome = .run) (hlt : s.cur + 1 < s.len) :
    (prefixedPath c lits s).outcome = .fail ↔ s.cat.lookupSecondary c = none ∨
      ∃ d, s.cat.lookupSecondary c = some d ∧ s.len < s.cur + 2 + (d.totalLength - 1) := by
  simp only [← Descriptor.lt_trailing_iff _ (Nat.succ_le_of_lt hlt)]
  obtain ⟨hle, -⟩ | ⟨-, hd, e⟩ | ⟨d, -, hd, hn, e⟩ | ⟨d, -, hd, hn, e⟩ := prefixedPath_cases c lits s
  · omega
  all_goals rw [e, hd]
  · simp
  · simpa using hn
  · simpa [hr] using hn

/-- Settles O25: of the step's branches the lone escape always fails, the end of the stream never, and each path exactly on its two causes. -/
theorem onlyTheThreeCausesFail : Obligations.OnlyTheThreeCausesFail := by
  intro s t h
  obtain ⟨hr, -, ⟨hle, rfl⟩ | ⟨hlt, hb, rfl⟩ | ⟨hlast, hb, rfl⟩ | ⟨hlt, hb, rfl⟩⟩ := step_cases h
  · simp [Nat.not_lt.mpr hle]
  · rw [plainPath_fail_iff hr hlt]
    simp [hlt, hb]
  · simp [← hlast, hb]
  · have hlt' : s.cur < s.len := by omega
    rw [prefixedPath_fail_iff hr hlt]
    simp [hlt', hb, Nat.ne_of_lt hlt]

/-- Settles O29: an entry of length 1 declares no literal, so none can be missing. -/
theorem secondaryTruncationUnreachable : Obligations.SecondaryTruncationUnreachable := by
  intro s t hone herr hb h offset needed available
  have hnone : ∀ d, s.cat.lookupSecondary (s.input.read (s.cur + 1)) = some d → d.trailing = 0 := fun d hd => by
    rw [Descriptor.trailing, hone _ d hd]
  obtain ⟨-, -, ⟨-, rfl⟩ | ⟨-, hne, -⟩ | ⟨-, -, rfl⟩ | ⟨-, -, rfl⟩⟩ := step_cases h
  · simp [herr]
  · exact absurd hb hne
  · simp
  · obtain ⟨-, e⟩ | ⟨-, -, e⟩ | ⟨d, -, hd, hn, -⟩ | ⟨d, -, -, -, e⟩ :=
      prefixedPath_cases (s.input.read (s.cur + 1)) (s.bytesFrom (s.cur + 2)) s
    · simp [e]
    · simp [e]
    · have := hnone d hd
      omega
    · simp [e, herr]

/-- Settles O33: entries and CUR grow by the same number. -/
theorem stepKeepsAccounting : Obligations.StepKeepsAccounting :=
  fun _ _ => step_keeps_accounted

/-- A step that leaves the pass running moves CUR on within IN (R171). -/
theorem step_advances_of_run (h : step s = .next t) (ht : t.outcome = .run) : s.cur + 1 ≤ t.cur ∧ t.cur ≤ t.len := by
  obtain ⟨-, rfl⟩ | ⟨es, hne, hle, rfl⟩ | ⟨es, e, -, -, -, rfl⟩ := step_finishes_appends_or_fails h
  · simp at ht
  · have hpos := List.length_pos_of_ne_nil hne
    exact ⟨Nat.add_le_add_left hpos s.cur, hle⟩
  · simp at ht

/-- Settles O36: a whole instruction takes at least its opcode byte, and the escape byte besides on the prefixed path. -/
theorem decodingAdvancesWithinTheInput : Obligations.DecodingAdvancesWithinTheInput := by
  intro s t h
  obtain ⟨-, -, -, -, hcur, -⟩ := step_leavesTheRest h
  refine ⟨hcur, step_advances_of_run h, fun ht hb => ?_⟩
  obtain ⟨-, hw, -⟩ := step_cases h
  obtain ⟨d, hd, htcur, -⟩ := step_prefixed_length h ht hb
  have hpos := (catalogEntriesHaveTheirInvariants s.cat _ d hw (.inr hd)).1
  omega

end Sys2Proof.Machine

/-! OUT stands entry by entry for the bytes of IN (spec 43_stream_assembler.md R176). -/

namespace Sys2Proof.Machine

variable {s t : State}

/-- The part of `OutDescribesInput` that no OUTCOME enters. -/
def DescribesInput (s : State) : Prop :=
  (∀ k e, s.out[k]? = some e → StandsFor s k e) ∧
  (∀ k v e, s.out[k]? = some (.escape v) → s.out[k + 1]? = some e → ∃ d, e = .instruction d)

/-- OUT ends in an accepted Escape, whose instruction is still to come. -/
def EndsInEscape (s : State) : Prop := afterEscape s.out s.out.length

/-- OUT stands for a whole number of instructions. -/
def AtBoundary (s : State) : Prop := DescribesInput s ∧ ¬ EndsInEscape s

theorem outDescribesInput_iff : OutDescribesInput s ↔ DescribesInput s ∧ (EndsInEscape s → s.outcome = .fail) :=
  and_assoc.symm

theorem describesInput_congr (hin : t.input = s.input) (hcat : t.cat = s.cat) (hout : t.out = s.out) :
    DescribesInput t ↔ DescribesInput s := by
  cases s
  cases t
  cases hin
  cases hcat
  cases hout
  exact Iff.rfl

theorem atBoundary_congr (hin : t.input = s.input) (hcat : t.cat = s.cat) (hout : t.out = s.out) :
    AtBoundary t ↔ AtBoundary s := by
  rw [AtBoundary, AtBoundary, describesInput_congr hin hcat hout, EndsInEscape, EndsInEscape, hout]

theorem atBoundary_emit_nil {cur : Nat} : AtBoundary (s.emit [] cur) ↔ AtBoundary s :=
  atBoundary_congr rfl rfl (List.append_nil _)

@[simp] theorem State.emit_emit (es es' : List Entry) (cur cur' : Nat) :
    (s.emit es cur).emit es' cur' = s.emit (es ++ es') cur' := by simp [State.emit]

theorem getElem?_snoc_eq_some {out : List Entry} {e e' : Entry} {k : Nat} (h : (out ++ [e])[k]? = some e') :
    out[k]? = some e' ∨ (k = out.length ∧ e' = e) := by
  obtain hlt | rfl | hgt := Nat.lt_trichotomy k out.length
  · rw [List.getElem?_append_left hlt] at h
    exact .inl h
  · simp only [List.getElem?_concat_length, Option.some.injEq] at h
    exact .inr ⟨rfl, h.symm⟩
  · rw [List.getElem?_eq_none (by simpa using hgt)] at h
    cases h

/-- What stands before an entry is not changed by what is appended after it. -/
theorem afterEscape_append {out : List Entry} {k : Nat} (es : List Entry) (h : k ≤ out.length) :
    afterEscape (out ++ es) k ↔ afterEscape out k := by
  cases k with
  | zero => exact Iff.rfl
  | succ k => rw [afterEscape, afterEscape, List.getElem?_append_left h]

theorem standsFor_emit {k : Nat} {e : Entry} (es : List Entry) (cur : Nat) (h : k ≤ s.out.length) :
    StandsFor (s.emit es cur) k e ↔ StandsFor s k e := by
  cases e with
  | escape v => exact Iff.rfl
  | literal v => exact Iff.rfl
  | instruction d => simp only [StandsFor, State.emit_out, State.emit_cat, State.emit_input, afterEscape_append es h]

theorem endsInEscape_emit_one {e : Entry} {cur : Nat} : EndsInEscape (s.emit [e] cur) ↔ ∃ v, e = .escape v := by
  simp [EndsInEscape, afterEscape]

/-- One more entry may be appended where it stands for the byte at its index, and after an Escape only an Instruction may. -/
theorem describesInput_emit_one {e : Entry} (cur : Nat) (hs : DescribesInput s) (he : StandsFor s s.out.length e)
    (hesc : EndsInEscape s → ∃ d, e = .instruction d) : DescribesInput (s.emit [e] cur) := by
  obtain ⟨hstands, hnext⟩ := hs
  refine ⟨fun k e' h => ?_, fun k v e' hk hk' => ?_⟩
  · obtain hold | ⟨rfl, rfl⟩ := getElem?_snoc_eq_some h
    · obtain ⟨hlt, -⟩ := List.getElem?_eq_some_iff.mp hold
      exact (standsFor_emit [e] cur hlt.le).mpr (hstands k e' hold)
    · exact (standsFor_emit [e'] cur le_rfl).mpr he
  · obtain hold' | ⟨hlast, rfl⟩ := getElem?_snoc_eq_some hk'
    · obtain ⟨hlt, -⟩ := List.getElem?_eq_some_iff.mp hold'
      rw [State.emit_out, List.getElem?_append_left (Nat.lt_of_succ_lt hlt)] at hk
      exact hnext k v e' hk hold'
    · rw [State.emit_out, List.getElem?_append_left (by omega)] at hk
      exact hesc (by rw [EndsInEscape, ← hlast]; exact ⟨v, hk⟩)

/-- At a boundary, literals copied from IN lead to a boundary (R163). -/
theorem atBoundary_emit_literals (n cur : Nat) (hs : AtBoundary s) :
    AtBoundary (s.emit ((s.input.slice s.out.length n).map .literal) cur) := by
  induction n generalizing s with
  | zero => exact atBoundary_emit_nil.mpr hs
  | succ n ih =>
    obtain ⟨hdesc, hesc⟩ := hs
    have hone : AtBoundary (s.emit [.literal (s.input.read s.out.length)] cur) :=
      ⟨describesInput_emit_one cur hdesc rfl fun h => absurd h hesc, by simp [endsInEscape_emit_one]⟩
    simpa [Memory.slice] using ih hone

/-- An Instruction that stands for its byte, with its literals copied from IN, leads to a boundary. -/
theorem atBoundary_emit_instruction {d : Descriptor} (n cur : Nat) (hs : DescribesInput s)
    (hd : StandsFor s s.out.length (.instruction d)) :
    AtBoundary (s.emit (.instruction d :: (s.input.slice (s.out.length + 1) n).map .literal) cur) := by
  have hone : AtBoundary (s.emit [.instruction d] cur) :=
    ⟨describesInput_emit_one cur hs hd fun _ => ⟨d, rfl⟩, by simp [endsInEscape_emit_one]⟩
  simpa using atBoundary_emit_literals n cur hone

theorem outDescribesInput_of_atBoundary (h : AtBoundary s) : OutDescribesInput s :=
  outDescribesInput_iff.mpr ⟨h.1, fun hesc => absurd hesc h.2⟩

/-- A failed pass may end in an Escape (D6). -/
theorem outDescribesInput_raise {e : DecodeError} {cur : Nat} (h : DescribesInput s) :
    OutDescribesInput (s.raise e cur) :=
  outDescribesInput_iff.mpr ⟨(describesInput_congr (s := s) rfl rfl rfl).mpr h, fun _ => rfl⟩

theorem plainPath_outDescribesInput (hs : AtBoundary s) (hcur : s.cur = s.out.length) :
    OutDescribesInput (plainPath (s.input.read s.cur) (s.bytesFrom (s.cur + 1)) s) := by
  obtain ⟨hdesc, hesc⟩ := hs
  obtain ⟨-, e⟩ | ⟨d, -, -, e⟩ | ⟨d, hd, hn, e⟩ :=
    plainPath_cases (s.input.read s.cur) (s.bytesFrom (s.cur + 1)) s <;> rw [e]
  · exact outDescribesInput_raise hdesc
  · exact outDescribesInput_raise hdesc
  · rw [instructionEntries_bytesFrom hn, hcur]
    exact outDescribesInput_of_atBoundary
      (atBoundary_emit_instruction _ _ hdesc ⟨fun h => absurd h hesc, fun _ => hcur ▸ hd⟩)

theorem prefixedPath_outDescribesInput (hs : AtBoundary s) (hcur : s.cur = s.out.length)
    (hb : s.input.read s.cur = escapeByte) :
    OutDescribesInput (prefixedPath (s.input.read (s.cur + 1)) (s.bytesFrom (s.cur + 2)) s) := by
  obtain ⟨hdesc, hesc⟩ := hs
  have hstands : StandsFor s s.out.length (.escape escapeByte) := ⟨hcur ▸ hb.symm, rfl⟩
  have haccepted : DescribesInput (s.emit [.escape escapeByte] (s.cur + 1)) :=
    describesInput_emit_one _ hdesc hstands fun h => absurd h hesc
  have hends : EndsInEscape (s.emit [.escape escapeByte] (s.cur + 1)) := endsInEscape_emit_one.mpr ⟨_, rfl⟩
  obtain ⟨-, e⟩ | ⟨-, -, e⟩ | ⟨d, -, -, -, e⟩ | ⟨d, -, hd, hn, e⟩ :=
    prefixedPath_cases (s.input.read (s.cur + 1)) (s.bytesFrom (s.cur + 2)) s <;> rw [e]
  · exact outDescribesInput_raise hdesc
  · exact outDescribesInput_raise haccepted
  · exact outDescribesInput_raise haccepted
  · have hinstr : StandsFor (s.emit [.escape escapeByte] (s.cur + 1)) (s.out.length + 1) (.instruction d) :=
      ⟨fun _ => hcur ▸ hd, fun h => absurd (by simpa [EndsInEscape] using hends) h⟩
    have := atBoundary_emit_instruction d.trailing (s.cur + 2 + d.trailing) haccepted (by simpa using hinstr)
    rw [instructionEntries_bytesFrom hn, hcur]
    exact outDescribesInput_of_atBoundary (by simpa [hcur] using this)

/-- A step from a state that stands for the bytes consumed leaves one that does (R176). -/
theorem step_keeps_outDescribesInput (hcur : s.cur = s.out.length) (hs : OutDescribesInput s)
    (h : step s = .next t) : OutDescribesInput t := by
  obtain ⟨hr, -, hcases⟩ := step_cases h
  obtain ⟨hdesc, hfail⟩ := outDescribesInput_iff.mp hs
  have hbound : AtBoundary s := ⟨hdesc, fun hesc => absurd (hr.symm.trans (hfail hesc)) (by decide)⟩
  obtain ⟨-, rfl⟩ | ⟨-, -, rfl⟩ | ⟨-, -, rfl⟩ | ⟨-, hb, rfl⟩ := hcases
  · exact outDescribesInput_of_atBoundary ((atBoundary_congr (s := s) rfl rfl rfl).mpr hbound)
  · exact plainPath_outDescribesInput hbound hcur
  · exact outDescribesInput_raise hdesc
  · exact prefixedPath_outDescribesInput hbound hcur hb

end Sys2Proof.Machine

/-! The safe states (Sys2Proof/Safety.lean): where a pass begins, every step, and what the host reads at the end. -/

namespace Sys2Proof.Machine

variable {s t : State}

/-- A step in RUN with ERR none leaves ERR and OUTCOME in agreement (R27, R32). -/
theorem step_keeps_errMatches (hs : ErrMatches s) (h : step s = .next t) : ErrMatches t := by
  have hnone : s.err = none := by simpa [ErrMatches, step_next_run h] using hs
  obtain ⟨-, -, -, -, -, herr⟩ := step_leavesTheRest h
  cases ht : t.outcome with
  | run => simpa [ErrMatches, ht, hnone] using herr
  | done => simpa [ErrMatches, ht, hnone] using herr
  | fail =>
    obtain ⟨e, hlegal, he, hlt, rfl⟩ | ⟨-, e, hlegal, he, hlt, rfl⟩ := step_failsAfter h ht
    · exact ⟨e, rfl, rfl, he ▸ hlt, hlegal⟩
    · exact ⟨e, rfl, rfl, he ▸ hlt, hlegal⟩

/-- A step that ends the pass normally was at the end of the stream, and stays there (R174). -/
theorem step_doneAtEnd (hs : Accounted s) (h : step s = .next t) : DoneAtEnd t := by
  intro hdone
  obtain ⟨-, hle⟩ := step_keeps_accounted hs h
  obtain ⟨-, hlen, -, -, hcur, -⟩ := step_leavesTheRest h
  have hend := step_done_at_end h hdone
  omega

/-- Settles O30: each part of `Safe` is kept by a step, the description of IN by the step of a state that counts its entries. -/
theorem stepKeepsSafe : Obligations.StepKeepsSafe := by
  rintro s t ⟨hacc, herr, -, hcanon, hdesc⟩ h
  exact {
    accounted := step_keeps_accounted hacc h
    errMatches := step_keeps_errMatches herr h
    doneAtEnd := step_doneAtEnd hacc h
    inputCanonical := by rwa [InputCanonical, step_input h, step_len h]
    outDescribesInput := step_keeps_outDescribesInput hacc.1 hdesc h }

theorem start_safe (image : List Byte) (cat : Catalog) : Safe (State.start image cat) where
  accounted := ⟨rfl, Nat.zero_le _⟩
  errMatches := rfl
  doneAtEnd := fun h => (nomatch h)
  inputCanonical := ⟨Memory.wf_ofBytes image, Memory.within_ofBytes image⟩
  outDescribesInput := ⟨fun _ _ h => (nomatch h), fun _ _ _ h => (nomatch h), fun h => h.elim⟩

/-- Settles O31: OUT is empty, so nothing is to be described, and the buffer made from an image is canonical. -/
theorem startIsSafe : Obligations.StartIsSafe :=
  ⟨start_safe [] catMin, start_safe⟩

/-- Every state of a pass is safe. -/
theorem runPass_safe (image : List Byte) (cat : Catalog) (n : Nat) : Safe (runPass n (State.start image cat)) :=
  runPass_keeps stepKeepsSafe n (start_safe image cat)

/-- After a pass that ended, the host reads a result (R166). -/
theorem Safe.exists_hostRead (hs : Safe s) (hended : s.outcome ≠ .run) : ∃ r, s.hostRead = some r := by
  have herr := hs.errMatches
  cases ho : s.outcome with
  | run => exact absurd ho hended
  | done => exact ⟨⟨s.out, s.cur, .ok⟩, by simp [State.hostRead, ho]⟩
  | fail =>
    rw [ErrMatches, ho] at herr
    obtain ⟨e, he, -⟩ := herr
    exact ⟨_, State.hostRead_of_fail ho he⟩

/-- Settles O37: a pass ends since each step in it consumes a byte, and in the safe state it leaves the host reads a result. -/
theorem passEndsWithinLengthPlusOneSteps : Obligations.PassEndsWithinLengthPlusOneSteps := by
  intro image cat hw
  have hended := runPass_start_ends image hw
  exact ⟨hended, (runPass_safe image cat _).exists_hostRead hended⟩

/-- What the host reads is OUT and CUR of an ended state, with `ok` in DONE and ERR in FAIL (R166). -/
theorem State.of_hostRead {r : PassResult} (h : s.hostRead = some r) :
    r.out = s.out ∧ r.stop = s.cur ∧
      ((s.outcome = .done ∧ r.status = .ok) ∨
        (s.outcome = .fail ∧ ∃ e, s.err = some e ∧ r.status = .err e)) := by
  cases ho : s.outcome with
  | run => simp [State.hostRead, ho] at h
  | done =>
    simp only [State.hostRead, ho, Option.some.injEq] at h
    subst h
    exact ⟨rfl, rfl, .inl ⟨rfl, rfl⟩⟩
  | fail =>
    simp only [State.hostRead, ho, Option.map_eq_some_iff] at h
    obtain ⟨e, he, rfl⟩ := h
    exact ⟨rfl, rfl, .inr ⟨rfl, e, he, rfl⟩⟩

/-- A result is read from a safe state over the image and the catalog of the pass. -/
theorem exists_safe_of_run {image : List Byte} {cat : Catalog} {r : PassResult} (h : run image cat = some r) :
    ∃ s : State, Safe s ∧ s.input = Memory.ofBytes image ∧ s.len = image.length ∧ s.cat = cat ∧
      s.hostRead = some r := by
  obtain ⟨hin, hlen, hcat⟩ := runPass_frame (image.length + 1) (State.start image cat)
  exact ⟨_, runPass_safe image cat _, hin, hlen, hcat, h⟩

/-- Settles O38: a safe state in DONE has consumed the whole buffer, one entry for each byte. -/
theorem donePassConsumesTheWholeImage : Obligations.DonePassConsumesTheWholeImage := by
  intro image cat r h hok
  obtain ⟨s, hsafe, -, hlen, -, hread⟩ := exists_safe_of_run h
  obtain ⟨hcur, -⟩ := hsafe.accounted
  obtain ⟨hout, hstop, ⟨hdone, -⟩ | ⟨-, e, -, herr⟩⟩ := State.of_hostRead hread
  · have hend := hsafe.doneAtEnd hdone
    rw [consumedBytes_eq_length, hout, hstop]
    omega
  · simp [hok] at herr

/-- Settles O39: in a safe state in FAIL the error stands at CUR, which counts the entries and lies inside IN. -/
theorem failedPassStopsAtTheErrorOffset : Obligations.FailedPassStopsAtTheErrorOffset := by
  intro image cat r e h herr
  obtain ⟨s, hsafe, -, hlen, -, hread⟩ := exists_safe_of_run h
  obtain ⟨hcur, -⟩ := hsafe.accounted
  obtain ⟨hout, hstop, ⟨-, hok⟩ | ⟨hfail, e', he', hstatus⟩⟩ := State.of_hostRead hread
  · simp [hok] at herr
  · have hmatch := hsafe.errMatches
    rw [ErrMatches, hfail] at hmatch
    obtain ⟨e'', he'', hoff, hlt, -⟩ := hmatch
    obtain rfl : e' = e := by simpa [hstatus] using herr
    obtain rfl : e' = e'' := by simpa [he'] using he''
    rw [consumedBytes_eq_length, hout, hstop]
    omega

/-- Below the length of an image, the buffer made from it holds its bytes. -/
theorem Memory.getElem?_of_lt {image : List Byte} {k : Nat} (h : k < image.length) :
    image[k]? = some ((Memory.ofBytes image).read k) := by
  rw [Memory.read_ofBytes, List.getElem?_eq_getElem h, Option.getD_some]

/-- Settles O44: OUT of a safe state stands for the bytes of IN, and IN is the image. -/
theorem entriesStandForTheirBytes : Obligations.EntriesStandForTheirBytes := by
  intro image cat r k h
  obtain ⟨s, ⟨⟨hcur, hle⟩, -, -, -, hstands, -⟩, hin, hlen, rfl, hread⟩ := exists_safe_of_run h
  obtain ⟨hout, -⟩ := State.of_hostRead hread
  rw [hout]
  have hbyte : ∀ {e}, s.out[k]? = some e → image[k]? = some (s.input.read k) := fun he => by
    obtain ⟨hlt, -⟩ := List.getElem?_eq_some_iff.mp he
    rw [hin]
    exact Memory.getElem?_of_lt (by omega)
  refine ⟨fun v he => ?_, fun v he => ?_, fun d he => ⟨_, hbyte he, ?_⟩⟩
  · have hv : v = s.input.read k := hstands k _ he
    rw [hv]
    exact hbyte he
  · obtain ⟨hv, hesc⟩ : v = s.input.read k ∧ v = escapeByte := hstands k _ he
    exact ⟨hv ▸ hbyte he, hesc⟩
  · obtain ⟨hsec, hprim⟩ := hstands k _ he
    by_cases hafter : afterEscape s.out k
    · exact .inl ⟨hafter, hsec hafter⟩
    · exact .inr ⟨hafter, hprim hafter⟩

end Sys2Proof.Machine

/-! What a step makes of the bytes from CUR, as a function of the catalogs and those bytes alone (spec 43_stream_assembler.md R161 to R165, 30_encoding.md R70). -/

namespace Sys2Proof.Machine

/-- What the bytes from CUR make a step do; offsets are counted from CUR. -/
inductive Reading where
  /-- The end of the stream (R161). -/
  | finish
  /-- A whole instruction with opcode byte `op` (R163, R164). -/
  | block (op : Byte) (b : Block)
  /-- The error `e` after the entries `es`: none, or the accepted Escape (R165, D6). -/
  | fail (es : List Entry) (e : DecodeError)

/-- The entries before an instruction's own: an accepted Escape on the prefixed path. -/
def opening (prefixed : Bool) : List Entry := if prefixed then [.escape escapeByte] else []

/-- The bytes up to an instruction's opcode byte (formats P and X of R70). -/
def opcodeBytes (prefixed : Bool) (op : Byte) : List Byte := if prefixed then [escapeByte, op] else [op]

/-- The lookup of either space (R120, R121). -/
def Catalog.lookup (c : Catalog) (prefixed : Bool) (op : Byte) : Option Descriptor :=
  if prefixed then c.lookupSecondary op else c.lookupPrimary op

/-- The entries of a block in stream order (R81). -/
def Block.entries (b : Block) : List Entry :=
  opening b.prefixed ++ .instruction b.descriptor :: b.literals.map .literal

/-- Opcode byte `op` of either space, with the bytes `lits` after it: lookup, then the truncation test (R163, R164). -/
def readOpcode (cat : Catalog) (prefixed : Bool) (op : Byte) (lits : List Byte) : Reading :=
  match cat.lookup prefixed op with
  | none => .fail (opening prefixed) (.unimplementedOpcode op prefixed (opening prefixed).length)
  | some d =>
    if lits.length < d.trailing then
      .fail (opening prefixed) (.truncatedOperand (opening prefixed).length d.trailing lits.length)
    else .block op ⟨prefixed, d, lits.take d.trailing⟩

/-- Fetch and classify (R161, R162, R203). -/
def readHead (cat : Catalog) : List Byte → Reading
  | [] => .finish
  | b :: rest =>
    if b = escapeByte then
      match rest with
      | [] => .fail [] (.truncatedEscape 0)
      | c :: lits => readOpcode cat true c lits
    else readOpcode cat false b rest

/-- What a reading does to the state it is made in. -/
def State.perform (s : State) : Reading → State
  | .finish => s.finish
  | .block _ b => s.emit b.entries (s.cur + b.entries.length)
  | .fail es e => (s.emit es (s.cur + es.length)).raise (e.shift s.cur) (s.cur + es.length)

section Perform

variable {s : State}

theorem plainPath_eq_perform (b : Byte) :
    plainPath b (s.bytesFrom (s.cur + 1)) s =
      s.perform (readOpcode s.cat false b (s.bytesFrom (s.cur + 1))) := by
  obtain ⟨hd, e⟩ | ⟨d, hd, hn, e⟩ | ⟨d, hd, hn, e⟩ := plainPath_cases b (s.bytesFrom (s.cur + 1)) s <;> rw [e]
  · simp [readOpcode, Catalog.lookup, hd, State.perform, opening, State.emit, State.raise, DecodeError.shift]
  · simp [readOpcode, Catalog.lookup, hd, hn, State.perform, opening, State.emit, State.raise, DecodeError.shift]
  · simp [readOpcode, Catalog.lookup, hd, Nat.not_lt.mpr hn, State.perform, opening, Block.entries,
      instructionEntries, hn, Nat.add_assoc, Nat.add_comm 1]

theorem prefixedPath_eq_perform (c : Byte) (hlt : s.cur + 1 < s.len) :
    prefixedPath c (s.bytesFrom (s.cur + 2)) s =
      s.perform (readOpcode s.cat true c (s.bytesFrom (s.cur + 2))) := by
  obtain ⟨hle, -⟩ | ⟨-, hd, e⟩ | ⟨d, -, hd, hn, e⟩ | ⟨d, -, hd, hn, e⟩ :=
    prefixedPath_cases c (s.bytesFrom (s.cur + 2)) s
  · omega
  all_goals rw [e]
  · simp [readOpcode, Catalog.lookup, hd, State.perform, opening, State.emit, State.raise, DecodeError.shift]
  · simp [readOpcode, Catalog.lookup, hd, hn, State.perform, opening, State.emit, State.raise, DecodeError.shift]
  · simp [readOpcode, Catalog.lookup, hd, Nat.not_lt.mpr hn, State.perform, opening, Block.entries,
      instructionEntries, hn, Nat.add_assoc, Nat.add_comm 2]

/-- A step does what the bytes from CUR say (R160 to R165). -/
theorem step_eq_perform (hr : s.outcome = .run) (hw : s.cat.wf = true) :
    step s = .next (s.perform (readHead s.cat (s.bytesFrom s.cur))) := by
  by_cases hend : s.len ≤ s.cur
  · rw [step_end hr hw hend, State.bytesFrom_of_le hend]
    rfl
  have hlt : s.cur < s.len := Nat.lt_of_not_le hend
  rw [State.bytesFrom_of_lt hlt]
  by_cases hb : s.input.read s.cur = escapeByte
  · by_cases hlast : s.len ≤ s.cur + 1
    · rw [step_loneEscape hr hw hlt hlast hb, State.bytesFrom_of_le hlast]
      simp [readHead, hb, State.perform, State.emit, State.raise, DecodeError.shift]
    · have hlt' : s.cur + 1 < s.len := Nat.lt_of_not_le hlast
      rw [step_prefixed hr hw hlt' hb, prefixedPath_eq_perform _ hlt', State.bytesFrom_of_lt hlt']
      simp [readHead, hb]
  · rw [step_plain hr hw hlt hb, plainPath_eq_perform]
    simp [readHead, hb]

theorem eq_perform_of_step {t : State} (h : step s = .next t) :
    t = s.perform (readHead s.cat (s.bytesFrom s.cur)) := by
  obtain ⟨hr, hw, -⟩ := step_cases h
  rw [step_eq_perform hr hw] at h
  cases h
  rfl

/-- What a reading does to a state does not look at IN (R53). -/
theorem State.perform_input (m : Memory) (x : Reading) :
    ({ s with input := m } : State).perform x = { s.perform x with input := m } := by
  cases x <;> rfl

end Perform

/-- Settles O27: of IN a step reads the bytes from CUR to LEN and no other. -/
theorem noReadPastTheInput : Obligations.NoReadPastTheInput := by
  intro s t m hagree h
  obtain ⟨hr, hw, -⟩ := step_cases h
  have hbytes : ({ s with input := m } : State).bytesFrom s.cur = s.bytesFrom s.cur :=
    Memory.slice_congr fun a ha (hlt : a < s.cur + (s.len - s.cur)) => hagree a (by omega)
  rw [step_eq_perform (s := { s with input := m }) hr hw, hbytes, State.perform_input, ← eq_perform_of_step h]

end Sys2Proof.Machine

/-! Changing what no step looks at in a descriptor (spec 40_operand_model.md R108, 41_opcode_catalog.md R124). -/

namespace Sys2Proof.Machine

/-- `f` changes no length, makes no cycle cost 0, and leaves the four descriptors alone that R127 asks for. -/
structure KeepsLengths (f : Descriptor → Descriptor) : Prop where
  length : ∀ d, (f d).totalLength = d.totalLength
  cycle : ∀ d, 1 ≤ d.cycleCost → 1 ≤ (f d).cycleCost
  nop : f dNop = dNop
  ldBc : f dLdBc = dLdBc
  ldSp : f dLdSp = dLdSp
  bit7H : f dBit7H = dBit7H

def Block.mapDescriptor (f : Descriptor → Descriptor) (b : Block) : Block := { b with descriptor := f b.descriptor }

def Reading.mapDescriptors (f : Descriptor → Descriptor) : Reading → Reading
  | .finish => .finish
  | .block op b => .block op (b.mapDescriptor f)
  | .fail es e => .fail (es.map (Entry.mapDescriptor f)) e

variable {f : Descriptor → Descriptor}

theorem Table.entry_mapDescriptors (f : Descriptor → Descriptor) (t : Table) (b : Byte) :
    Table.entry (Table.mapDescriptors f t) b = (Table.entry t b).map f := by
  induction t with
  | nil => rfl
  | cons e t ih =>
    rw [Table.mapDescriptors] at ih ⊢
    by_cases hb : e.1 = b
    · simp [Table.entry, hb]
    · simp [Table.entry, hb, ih]

theorem Catalog.lookupPrimary_mapDescriptors (f : Descriptor → Descriptor) (c : Catalog) (b : Byte) :
    (c.mapDescriptors f).lookupPrimary b = (c.lookupPrimary b).map f := Table.entry_mapDescriptors f _ b

theorem Catalog.lookupSecondary_mapDescriptors (f : Descriptor → Descriptor) (c : Catalog) (b : Byte) :
    (c.mapDescriptors f).lookupSecondary b = (c.lookupSecondary b).map f := Table.entry_mapDescriptors f _ b

theorem Catalog.lookup_mapDescriptors (f : Descriptor → Descriptor) (c : Catalog) (p : Bool) (b : Byte) :
    (c.mapDescriptors f).lookup p b = (c.lookup p b).map f := by
  cases p
  · exact Catalog.lookupPrimary_mapDescriptors f c b
  · exact Catalog.lookupSecondary_mapDescriptors f c b

theorem Table.risingFrom_mapDescriptors (f : Descriptor → Descriptor) (lo : Nat) (t : Table) :
    Table.risingFrom lo (Table.mapDescriptors f t) = Table.risingFrom lo t := by
  induction t generalizing lo with
  | nil => rfl
  | cons e t ih => exact congrArg (decide (lo ≤ e.1.toNat) && ·) (ih _)

theorem KeepsLengths.wf_descriptor (hf : KeepsLengths f) {d : Descriptor} (h : d.wf = true) : (f d).wf = true := by
  simp only [Descriptor.wf, Bool.and_eq_true, decide_eq_true_eq] at h ⊢
  exact ⟨(hf.length d).symm ▸ h.1, hf.cycle d h.2⟩

theorem KeepsLengths.wf_table (hf : KeepsLengths f) {t : Table} (h : Table.wf t = true) :
    Table.wf (Table.mapDescriptors f t) = true := by
  simp only [Table.wf, Bool.and_eq_true, Table.risingFrom_mapDescriptors] at h ⊢
  refine ⟨h.1, List.all_eq_true.mpr fun e he => ?_⟩
  obtain ⟨e', he', rfl⟩ := List.mem_map.mp he
  exact hf.wf_descriptor (List.all_eq_true.mp h.2 e' he')

theorem KeepsLengths.wf_catalog (hf : KeepsLengths f) {c : Catalog} (h : c.wf = true) :
    (c.mapDescriptors f).wf = true := by
  obtain ⟨hp, hs, hesc, h0, h1, h2, h3⟩ := Catalog.wf_clauses h
  have hp' : Table.wf (c.mapDescriptors f).primary = true := hf.wf_table hp
  have hs' : Table.wf (c.mapDescriptors f).secondary = true := hf.wf_table hs
  simp [Catalog.wf, hp', hs', Catalog.lookupPrimary_mapDescriptors, Catalog.lookupSecondary_mapDescriptors, hesc,
    h0, h1, h2, h3, hf.nop, hf.ldBc, hf.ldSp, hf.bit7H]

theorem KeepsLengths.trailing (hf : KeepsLengths f) (d : Descriptor) : (f d).trailing = d.trailing := by
  rw [Descriptor.trailing, hf.length, Descriptor.trailing]

theorem map_opening (f : Descriptor → Descriptor) (p : Bool) :
    (opening p).map (Entry.mapDescriptor f) = opening p := by
  cases p <;> rfl

theorem Block.entries_mapDescriptor (f : Descriptor → Descriptor) (b : Block) :
    (b.mapDescriptor f).entries = b.entries.map (Entry.mapDescriptor f) := by
  simp [Block.entries, Block.mapDescriptor, map_opening, Entry.mapDescriptor]

theorem KeepsLengths.readOpcode_mapDescriptors (hf : KeepsLengths f) (c : Catalog) (p : Bool) (op : Byte)
    (lits : List Byte) :
    readOpcode (c.mapDescriptors f) p op lits = (readOpcode c p op lits).mapDescriptors f := by
  cases hd : c.lookup p op with
  | none =>
    simp [readOpcode, Catalog.lookup_mapDescriptors, hd, Reading.mapDescriptors, map_opening]
  | some d =>
    by_cases hn : lits.length < d.trailing
    · simp [readOpcode, Catalog.lookup_mapDescriptors, hd, hf.trailing, hn, Reading.mapDescriptors,
        map_opening]
    · simp [readOpcode, Catalog.lookup_mapDescriptors, hd, hf.trailing, hn, Reading.mapDescriptors,
        Block.mapDescriptor]

/-- Only lengths decide what is read, and the descriptors read are the changed ones. -/
theorem KeepsLengths.readHead_mapDescriptors (hf : KeepsLengths f) (c : Catalog) (bs : List Byte) :
    readHead (c.mapDescriptors f) bs = (readHead c bs).mapDescriptors f := by
  match bs with
  | [] => rfl
  | b :: rest =>
    by_cases hb : b = escapeByte
    · match rest with
      | [] => simp [readHead, hb, Reading.mapDescriptors]
      | c :: lits => simp [readHead, hb, hf.readOpcode_mapDescriptors]
    · simp [readHead, hb, hf.readOpcode_mapDescriptors]

theorem State.perform_mapDescriptors (f : Descriptor → Descriptor) (s : State) (x : Reading) :
    (s.mapDescriptors f).perform (x.mapDescriptors f) = (s.perform x).mapDescriptors f := by
  cases x with
  | finish => rfl
  | block op b =>
    simp [State.perform, Reading.mapDescriptors, State.mapDescriptors, Block.entries_mapDescriptor, State.emit]
  | fail es e => simp [State.perform, Reading.mapDescriptors, State.mapDescriptors, State.emit, State.raise]

/-- Settles O28: a step is decided by the bytes and by lengths, and passes the rest of a descriptor on. -/
theorem descriptorContentIsOpaque : Obligations.DescriptorContentIsOpaque := by
  intro f s t hlen hnop hldBc hldSp hbit h
  have hf : KeepsLengths f := ⟨fun d => (hlen d).1, fun d => (hlen d).2, hnop, hldBc, hldSp, hbit⟩
  obtain ⟨hr, hw, -⟩ := step_cases h
  calc step (s.mapDescriptors f)
      = .next ((s.mapDescriptors f).perform (readHead (s.cat.mapDescriptors f) (s.bytesFrom s.cur))) :=
        step_eq_perform hr (hf.wf_catalog hw)
    _ = .next (t.mapDescriptors f) := by
        rw [hf.readHead_mapDescriptors, State.perform_mapDescriptors, ← eq_perform_of_step h]

end Sys2Proof.Machine

/-! The pass as a relation between an image and its result, block by block (spec 43_stream_assembler.md R166, R172, R177). -/

namespace Sys2Proof.Machine

theorem Block.bytes_eq (op : Byte) (b : Block) : b.bytes op = opcodeBytes b.prefixed op ++ b.literals := rfl

@[simp] theorem length_opcodeBytes (p : Bool) (op : Byte) :
    (opcodeBytes p op).length = (opening p).length + 1 := by cases p <;> rfl

/-- A block has one entry for each of its bytes (R170). -/
theorem Block.length_bytes (op : Byte) (b : Block) : (b.bytes op).length = b.entries.length := by
  simp [Block.bytes_eq, Block.entries, Nat.add_assoc, Nat.add_comm 1]

theorem Block.length_entries_pos (b : Block) : 0 < b.entries.length := by
  simp [Block.entries]

/-- Only the first byte of an instruction is compared with the escape byte (R74, R162). -/
theorem readHead_opcodeBytes {cat : Catalog} {p : Bool} {op : Byte} (lits : List Byte)
    (hop : p = false → op ≠ escapeByte) : readHead cat (opcodeBytes p op ++ lits) = readOpcode cat p op lits := by
  cases p with
  | false => simp [opcodeBytes, readHead, hop rfl]
  | true => simp [opcodeBytes, readHead]

/-- Every byte list is empty, a lone escape byte, or begins with an opcode byte of one of the spaces. -/
theorem opcodeBytes_cases (bs : List Byte) :
    bs = [] ∨ bs = [escapeByte] ∨
    ∃ p op lits, (p = false → op ≠ escapeByte) ∧ bs = opcodeBytes p op ++ lits := by
  match bs with
  | [] => exact .inl rfl
  | b :: rest =>
    by_cases hb : b = escapeByte
    · subst hb
      match rest with
      | [] => exact .inr (.inl rfl)
      | c :: lits => exact .inr (.inr ⟨true, c, lits, (nomatch ·), rfl⟩)
    · exact .inr (.inr ⟨false, b, rest, fun _ => hb, rfl⟩)

theorem Block.from_iff {cat : Catalog} {op : Byte} {b : Block} :
    b.from cat op ↔ cat.lookup b.prefixed op = some b.descriptor ∧ b.literals.length = b.descriptor.trailing := Iff.rfl

/-- No entry of the primary space stands at the escape byte (R127 b). -/
theorem Catalog.lookup_ne_escape {cat : Catalog} {p : Bool} {op : Byte} {d : Descriptor} (hw : cat.wf = true)
    (h : cat.lookup p op = some d) (hp : p = false) : op ≠ escapeByte := by
  rintro rfl
  subst hp
  exact absurd ((Catalog.primary_escape hw).symm.trans h) (by simp)

/-- The bytes of a block are read as it, whatever its literals and whatever follows (R74). -/
theorem readHead_block {cat : Catalog} {op : Byte} {b : Block} (hw : cat.wf = true) (hb : b.from cat op)
    (rest : List Byte) : readHead cat (b.bytes op ++ rest) = .block op b := by
  obtain ⟨hd, hlen⟩ := Block.from_iff.mp hb
  rw [Block.bytes_eq, List.append_assoc, readHead_opcodeBytes _ (Catalog.lookup_ne_escape hw hd)]
  simp [readOpcode, hd, ← hlen]

/-- How a byte list fails to begin with a whole instruction (R201 to R203). -/
inductive Failing (cat : Catalog) : List Byte → List Entry → DecodeError → Prop where
  | loneEscape : Failing cat [escapeByte] [] (.truncatedEscape 0)
  | miss {p : Bool} {op : Byte} (lits : List Byte) (hop : p = false → op ≠ escapeByte)
      (hd : cat.lookup p op = none) :
      Failing cat (opcodeBytes p op ++ lits) (opening p) (.unimplementedOpcode op p (opening p).length)
  | cut {p : Bool} {op : Byte} {d : Descriptor} (lits : List Byte) (hop : p = false → op ≠ escapeByte)
      (hd : cat.lookup p op = some d) (hn : lits.length < d.trailing) :
      Failing cat (opcodeBytes p op ++ lits) (opening p)
        (.truncatedOperand (opening p).length d.trailing lits.length)

theorem readHead_failing {cat : Catalog} {bs : List Byte} {es : List Entry} {e : DecodeError}
    (h : Failing cat bs es e) : readHead cat bs = .fail es e := by
  cases h with
  | loneEscape => simp [readHead]
  | miss lits hop hd => simp [readHead_opcodeBytes lits hop, readOpcode, hd]
  | cut lits hop hd hn => simp [readHead_opcodeBytes lits hop, readOpcode, hd, hn]

/-- A byte list is empty, begins with a block, or fails. -/
theorem block_or_failing (cat : Catalog) (bs : List Byte) :
    bs = [] ∨ (∃ (op : Byte) (b : Block) (rest : List Byte), b.from cat op ∧ bs = b.bytes op ++ rest) ∨
    ∃ es e, Failing cat bs es e := by
  obtain rfl | rfl | ⟨p, op, lits, hop, rfl⟩ := opcodeBytes_cases bs
  · exact .inl rfl
  · exact .inr (.inr ⟨_, _, .loneEscape⟩)
  · cases hd : cat.lookup p op with
    | none => exact .inr (.inr ⟨_, _, .miss lits hop hd⟩)
    | some d =>
      by_cases hn : lits.length < d.trailing
      · exact .inr (.inr ⟨_, _, .cut lits hop hd hn⟩)
      · refine .inr (.inl ⟨op, ⟨p, d, lits.take d.trailing⟩, lits.drop d.trailing, ?_, ?_⟩)
        · exact Block.from_iff.mpr ⟨hd, List.length_take_of_le (Nat.le_of_not_lt hn)⟩
        · rw [Block.bytes_eq, List.append_assoc, List.take_append_drop]

/-- `r` is the result of a pass over the bytes: block after block to the end of the stream or to the first error. -/
inductive Decodes (cat : Catalog) : List Byte → PassResult → Prop where
  | finish : Decodes cat [] ⟨[], 0, .ok⟩
  | block {op : Byte} {b : Block} {rest : List Byte} {r : PassResult} (hb : b.from cat op)
      (hrest : Decodes cat rest r) : Decodes cat (b.bytes op ++ rest) (r.after b.entries b.entries.length)
  | fail {bs : List Byte} {es : List Entry} {e : DecodeError} (h : Failing cat bs es e) :
      Decodes cat bs ⟨es, es.length, .err e⟩

/-- Every byte list has a result: each block takes at least one byte (R172). -/
theorem exists_decodes (cat : Catalog) (bs : List Byte) : ∃ r, Decodes cat bs r := by
  obtain rfl | ⟨op, b, rest, hb, hbs⟩ | ⟨es, e, h⟩ := block_or_failing cat bs
  · exact ⟨_, .finish⟩
  · have hpos := b.length_entries_pos
    have hlen : bs.length = b.entries.length + rest.length := by rw [hbs, List.length_append, b.length_bytes]
    obtain ⟨r, hr⟩ := exists_decodes cat rest
    rw [hbs]
    exact ⟨_, .block hb hr⟩
  · exact ⟨_, .fail h⟩
termination_by bs.length

section After

variable (r : PassResult) (es es' : List Entry) (k k' : Nat)

@[simp] theorem PassResult.after_out : (r.after es k).out = es ++ r.out := rfl
@[simp] theorem PassResult.after_stop : (r.after es k).stop = k + r.stop := rfl

@[simp] theorem DecodeError.shift_zero (e : DecodeError) : e.shift 0 = e := by
  cases e <;> simp [DecodeError.shift]

@[simp] theorem DecodeError.shift_shift (e : DecodeError) : (e.shift k).shift k' = e.shift (k' + k) := by
  cases e <;> simp [DecodeError.shift, Nat.add_assoc]

@[simp] theorem PassResult.after_nil_zero : r.after [] 0 = r := by
  obtain ⟨out, stop, status⟩ := r
  cases status <;> simp [PassResult.after]

/-- Two decodes made later in turn are one made later by both (R177). -/
@[simp] theorem PassResult.after_after : (r.after es k).after es' k' = r.after (es' ++ es) (k' + k) := by
  obtain ⟨out, stop, status⟩ := r
  cases status <;> simp [PassResult.after, Nat.add_assoc]

variable {r es k}

theorem PassResult.status_of_after_ok (h : (r.after es k).status = .ok) : r.status = .ok := by
  obtain ⟨out, stop, ok | e⟩ := r
  · rfl
  · cases h

/-- The status of a pass that met a missing entry. -/
def PassStatus.isMiss (x : PassStatus) : Prop := ∃ b p o, x = .err (.unimplementedOpcode b p o)

theorem PassResult.after_isMiss_iff : (r.after es k).status.isMiss ↔ r.status.isMiss := by
  obtain ⟨out, stop, ok | e⟩ := r
  · exact Iff.rfl
  · cases e <;> simp [PassResult.after, DecodeError.shift, PassStatus.isMiss]

end After

section RunPass

variable {s : State}

theorem State.drop_bytesFrom (a k : Nat) : s.bytesFrom (a + k) = (s.bytesFrom a).drop k := by
  obtain hle | hlt := Nat.lt_or_ge (s.len - a) k
  · rw [State.bytesFrom_of_le (by omega), List.drop_eq_nil_of_le (by simpa using hle.le)]
  · obtain ⟨n, hn⟩ := Nat.exists_eq_add_of_le hlt
    have hrest : s.len - (a + k) = n := by omega
    rw [State.bytesFrom, State.bytesFrom, hrest, hn, Memory.slice_append,
      List.drop_left' (Memory.length_slice _ _ _)]

/-- The step at the bytes of a block appends its entries and moves on to what follows them. -/
theorem step_block {op : Byte} {b : Block} {rest : List Byte} (hr : s.outcome = .run) (hw : s.cat.wf = true)
    (hb : b.from s.cat op) (hbs : s.bytesFrom s.cur = b.bytes op ++ rest) :
    step s = .next (s.emit b.entries (s.cur + b.entries.length)) ∧
    s.bytesFrom (s.cur + b.entries.length) = rest := by
  constructor
  · rw [step_eq_perform hr hw, hbs, readHead_block hw hb]
    rfl
  · rw [State.drop_bytesFrom, hbs, List.drop_left' (b.length_bytes op)]

/-- Whatever state a pass goes on from, it adds the result of the bytes from CUR to what is there (R166). -/
theorem hostRead_runPass {cat : Catalog} {bs : List Byte} {r : PassResult} {n : Nat} (h : Decodes cat bs r)
    (hr : s.outcome = .run) (hcat : s.cat = cat) (hw : cat.wf = true) (hbs : s.bytesFrom s.cur = bs)
    (hn : s.len - s.cur < n) : (runPass n s).hostRead = some (r.after s.out s.cur) := by
  induction h generalizing s n with
  | finish =>
    subst hcat
    obtain ⟨n, rfl⟩ := Nat.exists_eq_add_of_lt hn
    rw [runPass_step _ (step_end hr hw (State.bytesFrom_eq_nil hbs)), runPass_ended _ (by simp)]
    simp [State.hostRead, PassResult.after]
  | @block op b rest r hb hrest ih =>
    subst hcat
    obtain ⟨n, rfl⟩ := Nat.exists_eq_add_of_lt hn
    obtain ⟨hstep, hnext⟩ := step_block hr hw hb hbs
    have hlen := s.length_bytesFrom s.cur
    rw [hbs, List.length_append, b.length_bytes] at hlen
    have hpos := b.length_entries_pos
    have hn' : s.len - (s.cur + b.entries.length) < s.len - s.cur + n := by omega
    rw [runPass_step _ hstep, ih (s := s.emit b.entries (s.cur + b.entries.length)) hr rfl hnext hn']
    simp
  | fail h =>
    subst hcat
    obtain ⟨n, rfl⟩ := Nat.exists_eq_add_of_lt hn
    have hstep := step_eq_perform hr hw
    rw [hbs, readHead_failing h] at hstep
    rw [runPass_step _ hstep, runPass_ended _ (by simp [State.perform])]
    simp [State.hostRead, State.perform, PassResult.after]

/-- Over an ill-formed catalog no step is taken, and the host reads nothing (R127). -/
theorem run_illFormed (image : List Byte) {cat : Catalog} (hw : cat.wf = false) : run image cat = none := by
  simp [run, runPass, step, whenEnabled_illFormed (s := State.start image cat) rfl hw, State.hostRead]

/-- The pass gives exactly the results of the relation, over well-formed catalogs (R127, R166). -/
theorem run_eq_some_iff {image : List Byte} {cat : Catalog} {r : PassResult} :
    run image cat = some r ↔ cat.wf = true ∧ Decodes cat image r := by
  have hrun : ∀ {r}, cat.wf = true → Decodes cat image r → run image cat = some r := fun {r} hw h => by
    have hbytes : (State.start image cat).bytesFrom 0 = image := Memory.slice_ofBytes image 0
    simpa [run] using hostRead_runPass (s := State.start image cat) h rfl rfl hw hbytes (Nat.lt_succ_self _)
  refine ⟨fun h => ?_, fun ⟨hw, h⟩ => hrun hw h⟩
  cases hw : cat.wf with
  | false => simp [run_illFormed image hw] at h
  | true =>
    obtain ⟨r', hr'⟩ := exists_decodes cat image
    have heq := (hrun hw hr').symm.trans h
    cases heq
    exact ⟨rfl, hr'⟩

end RunPass

end Sys2Proof.Machine

/-! What follows for whole passes (spec 43_stream_assembler.md R173, R177; 41_opcode_catalog.md R128; 30_encoding.md R74, R81). -/

namespace Sys2Proof.Machine

variable {cat cat' : Catalog} {x y bs : List Byte} {r r' : PassResult}

/-- A second image decodes after a first that decodes fully as it does alone (R177). -/
theorem Decodes.append (hx : Decodes cat x r) (hok : r.status = .ok) (hy : Decodes cat y r') :
    Decodes cat (x ++ y) (r'.after r.out r.stop) := by
  induction hx with
  | finish => simpa using hy
  | block hb hrest ih =>
    rw [List.append_assoc]
    simpa using Decodes.block hb (ih (PassResult.status_of_after_ok hok))
  | fail h => cases hok

/-- Settles O41: the first image's blocks are read before the second's, which follow where its stream would end. -/
theorem concatenatedImagesDecodeInTurn : Obligations.ConcatenatedImagesDecodeInTurn := by
  intro x y cat o r hx hy
  obtain ⟨hw, hx⟩ := run_eq_some_iff.mp hx
  obtain ⟨-, hy⟩ := run_eq_some_iff.mp hy
  exact run_eq_some_iff.mpr ⟨hw, hx.append rfl hy⟩

/-- A list that agrees with `xs ++ rest` past `xs` begins with `xs` too. -/
theorem eq_append_of_take_eq {xs rest ys : List Byte} {n : Nat}
    (h : ys.take (xs.length + n) = (xs ++ rest).take (xs.length + n)) :
    ∃ ys', ys = xs ++ ys' ∧ ys'.take n = rest.take n := by
  rw [List.take_length_add_append] at h
  have hhead : ys.take xs.length = xs := by simpa [List.take_take] using congrArg (List.take xs.length) h
  refine ⟨ys.drop xs.length, ?_, ?_⟩
  · calc ys = ys.take xs.length ++ ys.drop xs.length := (List.take_append_drop _ _).symm
      _ = xs ++ ys.drop xs.length := by rw [hhead]
  · simpa [List.drop_take] using congrArg (List.drop xs.length) h

/-- A miss is decided by the bytes up to the opcode byte that missed (R173). -/
theorem Failing.of_take_eq {es : List Entry} {e : DecodeError} (h : Failing cat x es e)
    (hmiss : (PassStatus.err e).isMiss) (hy : y.take (es.length + 1) = x.take (es.length + 1)) :
    Failing cat y es e := by
  cases h with
  | loneEscape => simp [PassStatus.isMiss] at hmiss
  | cut lits hop hd hn => simp [PassStatus.isMiss] at hmiss
  | @miss p op lits hop hd =>
    rw [← length_opcodeBytes p op] at hy
    obtain ⟨lits', rfl, -⟩ := eq_append_of_take_eq (n := 0) hy
    exact .miss lits' hop hd

/-- A pass stopped by a missing entry is decided by the bytes up to the stop offset (R173). -/
theorem Decodes.of_take_eq (hx : Decodes cat x r) (hmiss : r.status.isMiss)
    (hy : y.take (r.stop + 1) = x.take (r.stop + 1)) : Decodes cat y r := by
  induction hx generalizing y with
  | finish => simp [PassStatus.isMiss] at hmiss
  | @block op b rest r hb hrest ih =>
    rw [PassResult.after_stop, Nat.add_assoc, ← b.length_bytes op] at hy
    obtain ⟨rest', rfl, hrest'⟩ := eq_append_of_take_eq hy
    exact .block hb (ih (PassResult.after_isMiss_iff.mp hmiss) hrest')
  | fail h => exact .fail (h.of_take_eq hmiss hy)

/-- Settles O43: the blocks before the miss and the opcode byte that missed stand at the head of both images. -/
theorem bytesPastAMissAreNotRead : Obligations.BytesPastAMissAreNotRead := by
  intro x y cat o k b p hx hy
  obtain ⟨hw, hdec⟩ := run_eq_some_iff.mp hx
  rw [hx]
  exact run_eq_some_iff.mpr ⟨hw, hdec.of_take_eq ⟨b, p, k, rfl⟩ hy⟩

/-! ### Catalog growth -/

theorem Catalog.le.lookup (hle : cat.le cat') {p : Bool} {op : Byte} {d : Descriptor}
    (h : cat.lookup p op = some d) : cat'.lookup p op = some d := by
  cases p
  · exact hle.1 op d h
  · exact hle.2 op d h

theorem Block.from_of_le (hle : cat.le cat') {op : Byte} {b : Block} (h : b.from cat op) : b.from cat' op := by
  obtain ⟨hd, hlen⟩ := Block.from_iff.mp h
  exact Block.from_iff.mpr ⟨hle.lookup hd, hlen⟩

/-- Only a miss is undone by more entries (R128). -/
theorem Failing.of_le {es : List Entry} {e : DecodeError} (hle : cat.le cat') (h : Failing cat bs es e)
    (hmiss : ¬ (PassStatus.err e).isMiss) : Failing cat' bs es e := by
  cases h with
  | loneEscape => exact .loneEscape
  | cut lits hop hd hn => exact .cut lits hop (hle.lookup hd) hn
  | miss lits hop hd => exact absurd ⟨_, _, _, rfl⟩ hmiss

/-- A pass that met no missing entry has the same result under the larger catalog (R128). -/
theorem Decodes.of_le (hle : cat.le cat') (h : Decodes cat bs r) (hmiss : ¬ r.status.isMiss) :
    Decodes cat' bs r := by
  induction h with
  | finish => exact .finish
  | block hb hrest ih =>
    exact .block (Block.from_of_le hle hb) (ih fun h => hmiss (PassResult.after_isMiss_iff.mpr h))
  | fail h => exact .fail (h.of_le hle hmiss)

theorem prefixed_of_bytes_escape {p : Bool} {op : Byte} {lits rest : List Byte} (hop : p = false → op ≠ escapeByte)
    (h : opcodeBytes p op ++ lits = escapeByte :: rest) : p = true := by
  cases p with
  | true => rfl
  | false => exact absurd (List.cons.inj h).1 (hop rfl)

/-- From an escape byte with a byte after it every pass decodes an Escape first, even where the instruction then fails (R164, D6). -/
theorem Decodes.escape_isHead {c : Byte} {lits : List Byte} (hw : cat.wf = true) (h : Decodes cat bs r)
    (hbs : bs = escapeByte :: c :: lits) : [.escape escapeByte] <+: r.out := by
  cases h with
  | finish => cases hbs
  | @block op b rest r hb hrest =>
    obtain ⟨hd, -⟩ := Block.from_iff.mp hb
    rw [Block.bytes_eq, List.append_assoc] at hbs
    have hp := prefixed_of_bytes_escape (Catalog.lookup_ne_escape hw hd) hbs
    simp [Block.entries, hp, opening]
  | fail h =>
    cases h with
    | loneEscape => cases hbs
    | miss lits hop hd => simp [prefixed_of_bytes_escape hop hbs, opening]
    | cut lits hop hd hn => simp [prefixed_of_bytes_escape hop hbs, opening]

theorem Decodes.opening_isHead {p : Bool} {op : Byte} {lits : List Byte} (hw : cat.wf = true)
    (h : Decodes cat (opcodeBytes p op ++ lits) r) : opening p <+: r.out := by
  cases p with
  | false => simp [opening]
  | true => exact h.escape_isHead hw rfl

/-- What a failing instruction left in OUT is decoded first under any catalog. -/
theorem Failing.isHead {es : List Entry} {e : DecodeError} (hw : cat'.wf = true) (h : Failing cat bs es e)
    (hdec : Decodes cat' bs r) : es <+: r.out := by
  cases h with
  | loneEscape => simp
  | miss lits hop hd => exact hdec.opening_isHead hw
  | cut lits hop hd hn => exact hdec.opening_isHead hw

/-- The stop offset is the number of entries (R170). -/
theorem Decodes.stop_eq_length (h : Decodes cat bs r) : r.stop = r.out.length := by
  induction h with
  | finish => rfl
  | block hb hrest ih => simp [ih]
  | fail h => rfl

/-- Whatever is decoded under a catalog stands at the head of what is decoded under a larger one (R128). -/
theorem Decodes.exists_of_le (hw : cat'.wf = true) (hle : cat.le cat') (h : Decodes cat bs r) :
    ∃ r', Decodes cat' bs r' ∧ r.out <+: r'.out := by
  induction h with
  | finish => exact ⟨_, .finish, by simp⟩
  | block hb hrest ih =>
    obtain ⟨r', hr', hout⟩ := ih
    exact ⟨_, .block (Block.from_of_le hle hb) hr', by simpa using hout⟩
  | @fail bs es e h =>
    obtain ⟨r', hr'⟩ := exists_decodes cat' bs
    exact ⟨r', hr', h.isHead hw hr'⟩

/-- Settles O42: blocks, cuts and lone escapes are the same under the larger catalog, and a miss leaves an Escape at most, which every reading of its bytes begins with. -/
theorem catalogGrowthChangesOnlyMisses : Obligations.CatalogGrowthChangesOnlyMisses := by
  intro image cat cat' r hw hw' hle h
  obtain ⟨-, hdec⟩ := run_eq_some_iff.mp h
  refine ⟨fun hmiss => run_eq_some_iff.mpr ⟨hw', hdec.of_le hle fun ⟨b, p, o, he⟩ => hmiss b p o he⟩, ?_⟩
  obtain ⟨r', hr', hout⟩ := hdec.exists_of_le hw' hle
  refine ⟨r', run_eq_some_iff.mpr ⟨hw', hr'⟩, hout, ?_⟩
  rw [hdec.stop_eq_length, hr'.stop_eq_length]
  exact hout.length_le

/-! ### Re-cutting -/

theorem takeLiterals_append (lits : List Byte) (es : List Entry) :
    takeLiterals lits.length (lits.map .literal ++ es) = some (lits, es) := by
  induction lits with
  | nil => rfl
  | cons v lits ih => simp [takeLiterals, ih]

/-- The entries of a block are cut off whole, without a catalog (R81). -/
theorem cutBlock_append {op : Byte} {b : Block} (hb : b.from cat op) (es : List Entry) :
    cutBlock (b.entries ++ es) = some (b, es) := by
  obtain ⟨-, hlen⟩ := Block.from_iff.mp hb
  obtain ⟨p, d, lits⟩ := b
  have hlits : takeLiterals d.trailing (lits.map .literal ++ es) = some (lits, es) :=
    hlen ▸ takeLiterals_append lits es
  cases p <;> simp [Block.entries, opening, cutBlock, cutInstruction, hlits]

theorem recut_block {op : Byte} {b : Block} {coded : List Block} {fuel : Nat} {es : List Entry} (hb : b.from cat op)
    (h : recut fuel es = some coded) : recut (fuel + 1) (b.entries ++ es) = some (b :: coded) := by
  have hcut := cutBlock_append hb es
  obtain ⟨e, es', hes⟩ := List.exists_cons_of_length_pos b.length_entries_pos
  rw [hes, List.cons_append] at hcut ⊢
  simp [recut, hcut, h]

/-- A complete program is cut into the blocks it was decoded from (R81). -/
theorem Decodes.exists_recut (h : Decodes cat bs r) (hok : r.status = .ok) :
    ∃ coded : List (Byte × Block), (∀ fuel, r.out.length ≤ fuel → recut fuel r.out = some (coded.map Prod.snd)) ∧
      (coded.flatMap fun p => p.2.bytes p.1) = bs ∧ ∀ p ∈ coded, p.2.from cat p.1 := by
  induction h with
  | finish => exact ⟨[], fun fuel _ => by cases fuel <;> rfl, rfl, by simp⟩
  | @block op b rest r hb hrest ih =>
    obtain ⟨coded, hcut, hbytes, hfrom⟩ := ih (PassResult.status_of_after_ok hok)
    refine ⟨(op, b) :: coded, fun fuel hfuel => ?_, by simp [hbytes], by simpa [hb] using hfrom⟩
    have hpos := b.length_entries_pos
    rw [PassResult.after_out, List.length_append] at hfuel
    obtain ⟨fuel, rfl⟩ : ∃ m, fuel = m + 1 := ⟨fuel - 1, by omega⟩
    exact recut_block hb (hcut fuel (by omega))
  | fail h => cases hok

/-- Settles O45: the blocks a complete pass decoded, with their opcode bytes, are the cut and give the image back. -/
theorem completeProgramRecutsToTheImage : Obligations.CompleteProgramRecutsToTheImage := by
  intro image cat o n h
  obtain ⟨-, hdec⟩ := run_eq_some_iff.mp h
  obtain ⟨coded, hcut, hbytes, hfrom⟩ := hdec.exists_recut rfl
  exact ⟨coded, hcut o.length le_rfl, hbytes, hfrom⟩

/-! ### Literals -/

/-- The bytes of a block before an image decode to its entries and then to what the image decodes to (R74, R177). -/
theorem run_block {op : Byte} {b : Block} {k : Nat} (hb : b.from cat op) (hk : b.entries.length = k)
    (h : run y cat = some r) : run (b.bytes op ++ y) cat = some (r.after b.entries k) := by
  obtain ⟨hw, hdec⟩ := run_eq_some_iff.mp h
  exact run_eq_some_iff.mpr ⟨hw, hk ▸ .block hb hdec⟩

theorem wf_of_run_eq_some (h : run y cat = some r) : cat.wf = true := (run_eq_some_iff.mp h).1

theorem run_primary {op : Byte} {d : Descriptor} {lits : List Byte} (h : run y cat = some r)
    (hd : cat.lookupPrimary op = some d) (hlen : lits.length = d.trailing) :
    run (op :: (lits ++ y)) cat = some (r.after (.instruction d :: lits.map .literal) d.totalLength) := by
  have hL := Catalog.primary_trailing_add_one (wf_of_run_eq_some h) hd
  exact run_block (b := ⟨false, d, lits⟩) ⟨hd, hlen⟩ (by simpa [Block.entries, opening, hlen] using hL) h

theorem run_secondary {op : Byte} {d : Descriptor} {lits : List Byte} (h : run y cat = some r)
    (hd : cat.lookupSecondary op = some d) (hlen : lits.length = d.trailing) :
    run (escapeByte :: op :: (lits ++ y)) cat =
      some (r.after (.escape escapeByte :: .instruction d :: lits.map .literal) (1 + d.totalLength)) := by
  have hL := Catalog.secondary_trailing_add_one (wf_of_run_eq_some h) hd
  refine run_block (b := ⟨true, d, lits⟩) ⟨hd, hlen⟩ ?_ h
  simpa [Block.entries, opening, hlen, Nat.add_comm 1] using hL

/-- Settles O46: an entry with its literals is one block whatever their values, and an image follows it as it decodes alone. -/
theorem literalsAreNeverDecoded : Obligations.LiteralsAreNeverDecoded := by
  intro y cat r h
  have hw := wf_of_run_eq_some h
  exact ⟨fun op d lits => run_primary h, fun op d lits => run_secondary h, fun a b =>
    ⟨run_primary (lits := [a, b]) h (Catalog.primary_ldBc hw) rfl,
      run_primary (lits := [a, b]) h (Catalog.primary_ldSp hw) rfl⟩⟩

end Sys2Proof.Machine
